-- ==== Sys2Proof/Word.lean ====
section
/-! DEFINITION. The 16-bit word and its two readings as an integer (spec/00_scope.md §5, R5). -/

namespace Sys2Proof

/-- A register, a memory word, the PC, an instruction word: 16 bits (R5). -/
abbrev Word := BitVec 16

/-- One byte of a program image (R230). The machine itself has no bytes (R41). -/
abbrev Byte := BitVec 8

/-- `uval(w)`: the unsigned value, 0..65535 (00_scope.md §5). -/
abbrev uval (w : Word) : Int := (w.toNat : Int)

/-- `sval(w)`: the two's-complement value, -32768..32767 (00_scope.md §5). -/
abbrev sval (w : Word) : Int := w.toInt

end Sys2Proof
end

