-- ==== Sys2Proof/Syntax.lean ====
section
/-! DEFINITION. The instructions, one constructor per row of spec/opcode_table.json (R63, R64, R69). -/

namespace Sys2Proof

/-- The eight general registers R0..R7 (R21). -/
inductive Reg where
  | r0 | r1 | r2 | r3 | r4 | r5 | r6 | r7
  deriving DecidableEq, Repr

/-- A decoded instruction. Offsets and immediates are the fields' bits (R65); a shift amount is a count, checked by
`Instr.wf`. Bits that a format ignores (R66) are not part of the instruction. -/
inductive Instr where
  /-- `ADD DR, SR1, SR2` (R120) -/
  | addReg (dr sr1 sr2 : Reg)
  /-- `ADD DR, SR1, #imm5` (R121) -/
  | addImm (dr sr1 : Reg) (imm5 : BitVec 5)
  /-- `AND DR, SR1, SR2` (R122) -/
  | andReg (dr sr1 sr2 : Reg)
  /-- `AND DR, SR1, #imm5` (R123) -/
  | andImm (dr sr1 : Reg) (imm5 : BitVec 5)
  /-- `NOT DR, SR` (R124) -/
  | not (dr sr : Reg)
  /-- `LSHF DR, SR, #amount4` (R125) -/
  | lshf (dr sr : Reg) (amount4 : Nat)
  /-- `RSHFL DR, SR, #amount4` (R126) -/
  | rshfl (dr sr : Reg) (amount4 : Nat)
  /-- `RSHFA DR, SR, #amount4` (R127) -/
  | rshfa (dr sr : Reg) (amount4 : Nat)
  /-- SHF with the unassigned mode 10, an illegal encoding without operands (R128) -/
  | shfMode10
  /-- `BR[n][z][p]` (R140) -/
  | br (n z p : Bool) (pcOffset9 : BitVec 9)
  /-- `JMP BaseR` (R141) -/
  | jmp (baseR : Reg)
  /-- `JSR` (R142) -/
  | jsr (pcOffset11 : BitVec 11)
  /-- `JSRR BaseR` (R143) -/
  | jsrr (baseR : Reg)
  /-- `LD DR` (R160) -/
  | ld (dr : Reg) (pcOffset9 : BitVec 9)
  /-- `LDI DR` (R161) -/
  | ldi (dr : Reg) (pcOffset9 : BitVec 9)
  /-- `LDR DR, BaseR, #offset6` (R162) -/
  | ldr (dr baseR : Reg) (offset6 : BitVec 6)
  /-- `ST SR` (R163) -/
  | st (sr : Reg) (pcOffset9 : BitVec 9)
  /-- `STI SR` (R164) -/
  | sti (sr : Reg) (pcOffset9 : BitVec 9)
  /-- `STR SR, BaseR, #offset6` (R165) -/
  | str (sr baseR : Reg) (offset6 : BitVec 6)
  /-- `LEA DR` (R166) -/
  | lea (dr : Reg) (pcOffset9 : BitVec 9)
  /-- `TRAP trapvect8` (R190) -/
  | trap (trapvect8 : BitVec 8)
  /-- the reserved opcode 8, represented explicitly and without operands (R69, R107) -/
  | invalid
  deriving DecidableEq, Repr

end Sys2Proof
end

