-- ==== Sys2Proof/WellFormed.lean ====
section
/-! DEFINITION. Which instruction terms an encoding admits (R65). -/

namespace Sys2Proof

/-- `amount4` is 0..15 (R65), so no shift reaches the width of the register. -/
def amountOk (amount : Nat) : Bool := decide (amount < 16)

/-- The instruction fits its encoding. Registers, offsets, immediates and the vector are of their field's type; the
shift amounts are the one range to check. -/
def Instr.wf : Instr → Bool
  | .addReg _ _ _ => true
  | .addImm _ _ _ => true
  | .andReg _ _ _ => true
  | .andImm _ _ _ => true
  | .not _ _ => true
  | .lshf _ _ a => amountOk a
  | .rshfl _ _ a => amountOk a
  | .rshfa _ _ a => amountOk a
  | .shfMode10 => true
  | .br _ _ _ _ => true
  | .jmp _ => true
  | .jsr _ => true
  | .jsrr _ => true
  | .ld _ _ => true
  | .ldi _ _ => true
  | .ldr _ _ _ => true
  | .st _ _ => true
  | .sti _ _ => true
  | .str _ _ _ => true
  | .lea _ _ => true
  | .trap _ => true
  | .invalid => true

end Sys2Proof
end

