-- ==== Sys2Proof/Decode.lean ====
section
/-! DEFINITION. The decoder, total on every 16-bit word (R69), then the encoder, both from the formats of R63 and the
opcode map of R64, and the opcode table row by row (spec/opcode_table.json). Opcode values, field positions and SHF
mode codes are the spec's decisions D1, D2, D4; ignored bits D3; the fourth SHF mode D5 (log 9). -/

namespace Sys2Proof

/-- `extract_field(instr, shift, width)`, unsigned (R8). -/
abbrev extractField (w : Word) (shift width : Nat) : BitVec width := w.extractLsb' shift width

/-- One bit of an instruction word. -/
abbrev bitAt (w : Word) (i : Nat) : Bool := w.getLsbD i

/-- The register whose index is a 3-bit field (R62, R65). -/
def Reg.ofBits (b : BitVec 3) : Reg :=
  match b.getLsbD 2, b.getLsbD 1, b.getLsbD 0 with
  | false, false, false => .r0
  | false, false, true => .r1
  | false, true, false => .r2
  | false, true, true => .r3
  | true, false, false => .r4
  | true, false, true => .r5
  | true, true, false => .r6
  | true, true, true => .r7

/-- A register's index as a field. -/
def Reg.toBits : Reg → BitVec 3
  | .r0 => 0
  | .r1 => 1
  | .r2 => 2
  | .r3 => 3
  | .r4 => 4
  | .r5 => 5
  | .r6 => 6
  | .r7 => 7

/-- The register named by the three bits of `w` from bit `lo` up. -/
def regField (w : Word) (lo : Nat) : Reg := Reg.ofBits (extractField w lo 3)

/-- SHF by its mode `ir[5:4]`: 00 LSHF, 01 RSHFL, 11 RSHFA, 10 unassigned (R64, R128). -/
def decodeShf (w : Word) : Instr :=
  match bitAt w 5, bitAt w 4 with
  | false, false => .lshf (regField w 9) (regField w 6) (extractField w 0 4).toNat
  | false, true => .rshfl (regField w 9) (regField w 6) (extractField w 0 4).toNat
  | true, false => .shfMode10
  | true, true => .rshfa (regField w 9) (regField w 6) (extractField w 0 4).toNat

/-- The decoder: dispatch on `ir[15:12]` (R61, R64), every opcode value explicit and none a default (R69). It never
fails: the illegal encodings of R67 are the instructions `invalid` and `shfMode10`. -/
def decode (w : Word) : Instr :=
  match bitAt w 15, bitAt w 14, bitAt w 13, bitAt w 12 with
  | false, false, false, false => .br (bitAt w 11) (bitAt w 10) (bitAt w 9) (extractField w 0 9)
  | false, false, false, true =>
    bif bitAt w 5 then .addImm (regField w 9) (regField w 6) (extractField w 0 5)
    else .addReg (regField w 9) (regField w 6) (regField w 0)
  | false, false, true, false => .ld (regField w 9) (extractField w 0 9)
  | false, false, true, true => .st (regField w 9) (extractField w 0 9)
  | false, true, false, false =>
    bif bitAt w 11 then .jsr (extractField w 0 11) else .jsrr (regField w 6)
  | false, true, false, true =>
    bif bitAt w 5 then .andImm (regField w 9) (regField w 6) (extractField w 0 5)
    else .andReg (regField w 9) (regField w 6) (regField w 0)
  | false, true, true, false => .ldr (regField w 9) (regField w 6) (extractField w 0 6)
  | false, true, true, true => .str (regField w 9) (regField w 6) (extractField w 0 6)
  | true, false, false, false => .invalid
  | true, false, false, true => .not (regField w 9) (regField w 6)
  | true, false, true, false => .ldi (regField w 9) (extractField w 0 9)
  | true, false, true, true => .sti (regField w 9) (extractField w 0 9)
  | true, true, false, false => .jmp (regField w 6)
  | true, true, false, true => decodeShf w
  | true, true, true, false => .lea (regField w 9) (extractField w 0 9)
  | true, true, true, true => .trap (extractField w 0 8)

/-- The opcode value of an instruction, `ir[15:12]` (R64): what a fault reports (R200). -/
def Instr.opcode : Instr → BitVec 4
  | .br _ _ _ _ => 0
  | .addReg _ _ _ => 1
  | .addImm _ _ _ => 1
  | .ld _ _ => 2
  | .st _ _ => 3
  | .jsr _ => 4
  | .jsrr _ => 4
  | .andReg _ _ _ => 5
  | .andImm _ _ _ => 5
  | .ldr _ _ _ => 6
  | .str _ _ _ => 7
  | .invalid => 8
  | .not _ _ => 9
  | .ldi _ _ => 10
  | .sti _ _ => 11
  | .jmp _ => 12
  | .lshf _ _ _ => 13
  | .rshfl _ _ _ => 13
  | .rshfa _ _ _ => 13
  | .shfMode10 => 13
  | .lea _ _ => 14
  | .trap _ => 15

/-- A field at its place in the word: bit 0 of `field` is bit `lo` of the word. -/
def placeField {n : Nat} (field : BitVec n) (lo : Nat) : Word := field.setWidth 16 <<< lo

/-- A condition bit of BR as a field. -/
def condBit (b : Bool) : BitVec 1 := BitVec.ofBool b

/-- The word of an instruction, each field at its place in the formats of R63. A bit the decoder ignores holds the value
R63 gives in brackets (NOT 111111, the others 0); `shfMode10` and `invalid`, which have no operands, hold 0 in every
ignored bit (log 7). -/
def encode : Instr → Word
  | .addReg dr sr1 sr2 => placeField 0b0001#4 12 ||| placeField dr.toBits 9 ||| placeField sr1.toBits 6 |||
      placeField sr2.toBits 0
  | .addImm dr sr1 imm5 => placeField 0b0001#4 12 ||| placeField dr.toBits 9 ||| placeField sr1.toBits 6 |||
      placeField 1#1 5 ||| placeField imm5 0
  | .andReg dr sr1 sr2 => placeField 0b0101#4 12 ||| placeField dr.toBits 9 ||| placeField sr1.toBits 6 |||
      placeField sr2.toBits 0
  | .andImm dr sr1 imm5 => placeField 0b0101#4 12 ||| placeField dr.toBits 9 ||| placeField sr1.toBits 6 |||
      placeField 1#1 5 ||| placeField imm5 0
  | .not dr sr => placeField 0b1001#4 12 ||| placeField dr.toBits 9 ||| placeField sr.toBits 6 |||
      placeField 0b111111#6 0
  | .lshf dr sr a => placeField 0b1101#4 12 ||| placeField dr.toBits 9 ||| placeField sr.toBits 6 |||
      placeField 0b00#2 4 ||| placeField (BitVec.ofNat 4 a) 0
  | .rshfl dr sr a => placeField 0b1101#4 12 ||| placeField dr.toBits 9 ||| placeField sr.toBits 6 |||
      placeField 0b01#2 4 ||| placeField (BitVec.ofNat 4 a) 0
  | .rshfa dr sr a => placeField 0b1101#4 12 ||| placeField dr.toBits 9 ||| placeField sr.toBits 6 |||
      placeField 0b11#2 4 ||| placeField (BitVec.ofNat 4 a) 0
  | .shfMode10 => placeField 0b1101#4 12 ||| placeField 0b10#2 4
  | .br n z p off => placeField 0b0000#4 12 ||| placeField (condBit n) 11 ||| placeField (condBit z) 10 |||
      placeField (condBit p) 9 ||| placeField off 0
  | .jmp baseR => placeField 0b1100#4 12 ||| placeField baseR.toBits 6
  | .jsr off => placeField 0b0100#4 12 ||| placeField 1#1 11 ||| placeField off 0
  | .jsrr baseR => placeField 0b0100#4 12 ||| placeField baseR.toBits 6
  | .ld dr off => placeField 0b0010#4 12 ||| placeField dr.toBits 9 ||| placeField off 0
  | .ldi dr off => placeField 0b1010#4 12 ||| placeField dr.toBits 9 ||| placeField off 0
  | .ldr dr baseR off => placeField 0b0110#4 12 ||| placeField dr.toBits 9 ||| placeField baseR.toBits 6 |||
      placeField off 0
  | .st sr off => placeField 0b0011#4 12 ||| placeField sr.toBits 9 ||| placeField off 0
  | .sti sr off => placeField 0b1011#4 12 ||| placeField sr.toBits 9 ||| placeField off 0
  | .str sr baseR off => placeField 0b0111#4 12 ||| placeField sr.toBits 9 ||| placeField baseR.toBits 6 |||
      placeField off 0
  | .lea dr off => placeField 0b1110#4 12 ||| placeField dr.toBits 9 ||| placeField off 0
  | .trap v => placeField 0b1111#4 12 ||| placeField v 0
  | .invalid => placeField 0b1000#4 12

/-- The bits of an instruction's word that its format ignores (R63 `-`, R66; R128 uses no operand of the unassigned
SHF mode). -/
def Instr.ignoredBits : Instr → Word
  | .addReg _ _ _ => 0x0018
  | .addImm _ _ _ => 0x0000
  | .andReg _ _ _ => 0x0018
  | .andImm _ _ _ => 0x0000
  | .not _ _ => 0x003F
  | .lshf _ _ _ => 0x0000
  | .rshfl _ _ _ => 0x0000
  | .rshfa _ _ _ => 0x0000
  | .shfMode10 => 0x0FCF
  | .br _ _ _ _ => 0x0000
  | .jmp _ => 0x0E3F
  | .jsr _ => 0x0000
  | .jsrr _ => 0x063F
  | .ld _ _ => 0x0000
  | .ldi _ _ => 0x0000
  | .ldr _ _ _ => 0x0000
  | .st _ _ => 0x0000
  | .sti _ _ => 0x0000
  | .str _ _ _ => 0x0000
  | .lea _ _ => 0x0000
  | .trap _ => 0x0F00
  | .invalid => 0x0FFF

/-- One row of spec/opcode_table.json: the words with `w &&& mask = value` stand for the instruction `build w`. -/
structure TableRow where
  mask : Word
  value : Word
  build : Word → Instr

/-- The word belongs to the row. -/
def TableRow.covers (row : TableRow) (w : Word) : Bool := w &&& row.mask == row.value

/-- spec/opcode_table.json in its order, "match" and "mask" as printed there. -/
def opcodeTable : List TableRow :=
  [⟨0xF020, 0x1000, fun w => .addReg (regField w 9) (regField w 6) (regField w 0)⟩,
   ⟨0xF020, 0x1020, fun w => .addImm (regField w 9) (regField w 6) (extractField w 0 5)⟩,
   ⟨0xF020, 0x5000, fun w => .andReg (regField w 9) (regField w 6) (regField w 0)⟩,
   ⟨0xF020, 0x5020, fun w => .andImm (regField w 9) (regField w 6) (extractField w 0 5)⟩,
   ⟨0xF000, 0x9000, fun w => .not (regField w 9) (regField w 6)⟩,
   ⟨0xF030, 0xD000, fun w => .lshf (regField w 9) (regField w 6) (extractField w 0 4).toNat⟩,
   ⟨0xF030, 0xD010, fun w => .rshfl (regField w 9) (regField w 6) (extractField w 0 4).toNat⟩,
   ⟨0xF030, 0xD030, fun w => .rshfa (regField w 9) (regField w 6) (extractField w 0 4).toNat⟩,
   ⟨0xF030, 0xD020, fun _ => .shfMode10⟩,
   ⟨0xF000, 0x0000, fun w => .br (bitAt w 11) (bitAt w 10) (bitAt w 9) (extractField w 0 9)⟩,
   ⟨0xF000, 0xC000, fun w => .jmp (regField w 6)⟩] ++
  [⟨0xF800, 0x4800, fun w => .jsr (extractField w 0 11)⟩,
   ⟨0xF800, 0x4000, fun w => .jsrr (regField w 6)⟩,
   ⟨0xF000, 0x2000, fun w => .ld (regField w 9) (extractField w 0 9)⟩,
   ⟨0xF000, 0xA000, fun w => .ldi (regField w 9) (extractField w 0 9)⟩,
   ⟨0xF000, 0x6000, fun w => .ldr (regField w 9) (regField w 6) (extractField w 0 6)⟩,
   ⟨0xF000, 0x3000, fun w => .st (regField w 9) (extractField w 0 9)⟩,
   ⟨0xF000, 0xB000, fun w => .sti (regField w 9) (extractField w 0 9)⟩,
   ⟨0xF000, 0x7000, fun w => .str (regField w 9) (regField w 6) (extractField w 0 6)⟩,
   ⟨0xF000, 0xE000, fun w => .lea (regField w 9) (extractField w 0 9)⟩,
   ⟨0xF000, 0xF000, fun w => .trap (extractField w 0 8)⟩,
   ⟨0xF000, 0x8000, fun _ => .invalid⟩]

/-- The instruction word of `nbits` bits whose value is `w` (bits above `nbits` are 0); none where that is longer than
the one-word instructions of R60. -/
def tableWord (nbits w : Nat) : Option Word :=
  if nbits ≤ 16 then some (BitVec.ofNat 16 (w % 2 ^ nbits)) else none

/-- What the decoder reads from an opcode-table word. -/
def decodeTableWord (nbits w : Nat) : Option Instr :=
  (tableWord nbits w).map decode

end Sys2Proof
end

