-- ==== Sys2Proof/Machine/Arch.lean ====
section
/-! DEFINITION. The architectural state of R20 (memory, R0-R7, PC, CC) as plain data, and a trap hook's verdict
(R191). -/

namespace Sys2Proof.Machine

/-- The condition code: exactly one of three (R27), never a bitmask. -/
inductive CC where
  | n | z | p
  deriving DecidableEq, Repr, Inhabited

/-- The register file R0..R7, eight independent words (R21). -/
structure Regs where
  r0 : Word
  r1 : Word
  r2 : Word
  r3 : Word
  r4 : Word
  r5 : Word
  r6 : Word
  r7 : Word
  deriving DecidableEq, Repr, Inhabited

/-- Memory as the list of its (address, word) cells in canonical form (`Memory.wf`): addresses strictly rising and
below 65,536, no cell equal to what an unlisted address reads as. The cell is the word, the spec's addressable unit
(R41); DEDUCED, log 1. -/
abbrev Memory := List (Nat × Word)

/-- The Machine State of the spec: "the sole owner of Memory, registers, PC, and condition flags" (R20). -/
structure ArchState where
  mem : Memory
  regs : Regs
  pc : Word
  cc : CC
  deriving DecidableEq, Repr, Inhabited

/-- What a trap hook answers (R191). -/
inductive TrapOutcome where
  | continue
  | halt
  deriving DecidableEq, Repr, Inhabited

end Sys2Proof.Machine
end

