-- ==== Sys2Proof/Config.lean ====
section
/-! DEFINITION. What an instance of the machine fixes (R5), and the model's two free values: constants without a body,
of which nothing can be proved. -/

namespace Sys2Proof

open Machine

/-- Memory has 65,536 words, addresses 0..65535 (R5, R40). -/
def Config.memoryWords : Nat := 65536

/-- What an address that nothing has written reads as: 0x0000 (R234). -/
def Config.unlistedWord : Word := 0x0000

/-- The origin that an origin word of 0 stands for (R5, R230). -/
def Config.defaultOrigin : Word := 0x3000

/-- The reset value of R0..R7 (R234, the spec's decision D14; log 9). -/
def Config.resetRegister : Word := 0x0000

/-- The reset value of the CC (R234, the spec's decision D15; log 9). -/
def Config.resetCC : CC := .z

/-- FREE VALUE (log 5): what the trap hook with a given number does with a vector and the Machine State. R191 makes the
hook a parameter of which nothing is assumed. -/
opaque Config.hostHook : Nat → BitVec 8 → ArchState → TrapOutcome × ArchState

/-- FREE VALUE (log 10): of an image that is truncated and too large at once, whether the size is what is reported.
R232 gives both errors and no order. -/
opaque Config.loadReportsSizeFirst : Bool

end Sys2Proof
end

