-- ==== Sys2Proof/Machine/State.lean ====
section
/-! DEFINITION. The machine's whole state (R20, R33-R37), why a step can stop, and the state after reset (R234). -/

namespace Sys2Proof.Machine

/-- A fault as an instruction or the advance raises it, before the dispatcher adds the opcode and the instruction
address (R200, 00_scope.md §5). -/
inductive Raise where
  | invalidOpcode
  | addressOutOfRange (address : Int)
  deriving DecidableEq, Repr

/-- The Fault value of a halt report (R200-R202). `pc` is the address of the faulting instruction (D13). -/
inductive FaultValue where
  | invalidOpcode (opcode : BitVec 4) (pc : Word)
  | addressOutOfRange (address : Int) (opcode : BitVec 4) (pc : Word)
  deriving DecidableEq, Repr

/-- The halt reasons of R207; with a fault, its value. -/
inductive HaltReason where
  | trapHalt
  | fault (value : FaultValue)
  | stopRequest
  | cycleLimit
  deriving DecidableEq, Repr

/-- The run state (R33), which holds the halt report (R36). -/
inductive RunState where
  | running
  | halted (reason : HaltReason)
  deriving DecidableEq, Repr

/-- The whole state: the architectural state, the run state, and the host's side of the block (R20). -/
structure State extends ArchState where
  run : RunState
  /-- cycles begun since the initial state (R35), no width limit (R212) -/
  cycles : Nat
  /-- the host's stop request (R34) -/
  stopRequested : Bool
  /-- the host's optional cycle limit (R35) -/
  cycleLimit : Option Nat
  /-- the number of the trap hook the host supplied, if it supplied one (R191, R192, R235) -/
  trapHook : Option Nat
  deriving DecidableEq, Repr

/-- Why `step` has no next state. -/
inductive Fault where
  /-- Raised by `step` alone, from a Halted state: "no further cycles execute" (R108), so there is no step. Safe
  (log 2). The hardware's own faults are no such stop: they are taken, and the state becomes Halted (R205). -/
  | halted
  deriving DecidableEq, Repr

/-- Why an instruction has no meaning. -/
inductive Refusal where
  /-- Raised by an arm of `exec` whose instruction is not modelled yet. Safe. No arm raises it. -/
  | notModelled (mnemonic : String)
  deriving DecidableEq, Repr

/-- The state in which the first cycle begins, R234, for the image with origin word 0 and an empty body (log 8): PC at
the default origin, memory all zero, no stop request, no limit, no hook supplied. -/
def State.reset : State where
  mem := []
  regs := ⟨Config.resetRegister, Config.resetRegister, Config.resetRegister, Config.resetRegister,
    Config.resetRegister, Config.resetRegister, Config.resetRegister, Config.resetRegister⟩
  pc := Config.defaultOrigin
  cc := Config.resetCC
  run := .running
  cycles := 0
  stopRequested := false
  cycleLimit := none
  trapHook := none

end Sys2Proof.Machine
end

