-- ==== Sys2Proof/Machine/Flags.lean ====
section
/-! DEFINITION. The condition code: how a value sets it (R7) and how BR tests it (R140). -/

namespace Sys2Proof.Machine

/-- `classify(value)`: Zero iff 0, Negative iff bit 15 is set, Positive otherwise (R7). -/
def classify (v : Word) : CC :=
  if v = 0 then .z else if v.msb then .n else .p

/-- The CC matches an asserted bit among n/z/p (R140). -/
def CC.matchesBits (cc : CC) (n z p : Bool) : Bool :=
  match cc with
  | .n => n
  | .z => z
  | .p => p

end Sys2Proof.Machine
end

