-- ==== Sys2Proof/Machine/Operands.lean ====
section
/-! DEFINITION. Operand values: sign extension (R6), the range check of a computed address (R44), and the effective
addresses of the addressing modes (R167). -/

namespace Sys2Proof.Machine

/-- `sext_N(v)` of an N-bit field (R6). -/
def sext {n : Nat} (field : BitVec n) : Word := field.signExtend 16

/-- `checkAddr(a)`: the word at Int `a` if `a` is an address, else AddressOutOfRange (R44, C5, C8). -/
def checkAddr (a : Int) : Except Raise Word :=
  if a < 0 ∨ a > 65535 then .error (.addressOutOfRange a) else .ok (BitVec.ofNat 16 a.toNat)

/-- Base plus signed offset on Int, with no reduction modulo 2^16: `uval(base) + sval(sext_N(offset))` (R44). -/
def effectiveAddress {n : Nat} (base : Word) (offset : BitVec n) : Int :=
  uval base + sval (sext offset)

end Sys2Proof.Machine
end

