-- ==== Sys2Proof/Machine/Ops.lean ====
section
/-! DEFINITION. The operations the meanings are written over: registers and memory (R38), halting and taking a fault
(R110, R205, R207), the parts of a cycle (R101-R103), and the host's inputs (R34, R191). -/

namespace Sys2Proof.Machine

/-! ### Registers -/

/-- `x[r]`: the one read of a register; none is hard-wired (R21). -/
def Regs.get (regs : Regs) : Reg → Word
  | .r0 => regs.r0
  | .r1 => regs.r1
  | .r2 => regs.r2
  | .r3 => regs.r3
  | .r4 => regs.r4
  | .r5 => regs.r5
  | .r6 => regs.r6
  | .r7 => regs.r7

/-- `x[r] <- v`, the one write of a register. -/
def Regs.set (regs : Regs) (r : Reg) (v : Word) : Regs :=
  match r with
  | .r0 => { regs with r0 := v }
  | .r1 => { regs with r1 := v }
  | .r2 => { regs with r2 := v }
  | .r3 => { regs with r3 := v }
  | .r4 => { regs with r4 := v }
  | .r5 => { regs with r5 := v }
  | .r6 => { regs with r6 := v }
  | .r7 => { regs with r7 := v }

/-- `read_reg(n)` (R38). -/
def State.reg (s : State) (r : Reg) : Word := s.regs.get r

/-- `x[r] <- v` alone, the CC unchanged: the R7 write of JSR and JSRR (R38, C2). -/
def State.setReg (s : State) (r : Reg) (v : Word) : State := { s with regs := s.regs.set r v }

/-- `write_reg(n, value)`: the register and, from the same value, the CC (R28, R38). -/
def State.writeReg (s : State) (r : Reg) (v : Word) : State :=
  { s with regs := s.regs.set r v, cc := classify v }

/-! ### Memory -/

/-- The first cell listed for address `a`, or what an unlisted address reads as (R234). -/
def Memory.lookup : Memory → Nat → Word
  | [], _ => Config.unlistedWord
  | (k, w) :: rest, a => if k = a then w else Memory.lookup rest a

/-- Memory with the word at `a` replaced, in canonical form: a word equal to what an unlisted address reads as is not
listed. -/
def Memory.put : Memory → Nat → Word → Memory
  | [], a, v => if v = Config.unlistedWord then [] else [(a, v)]
  | (k, w) :: rest, a, v =>
    if a < k then
      if v = Config.unlistedWord then (k, w) :: rest else (a, v) :: (k, w) :: rest
    else if a = k then
      if v = Config.unlistedWord then rest else (a, v) :: rest
    else (k, w) :: Memory.put rest a v

/-- `MemRead(addr, 1)`: the word at the address; no side effect (R46). -/
def Memory.read (m : Memory) (addr : Word) : Word := Memory.lookup m addr.toNat

/-- `MemWrite(addr, 1, v)`: the word at the address replaced (R47). -/
def Memory.write (m : Memory) (addr v : Word) : Memory := Memory.put m addr.toNat v

/-- The cells from address `lo` on are in canonical form. -/
def Memory.wfFrom : Nat → Memory → Bool
  | _, [] => true
  | lo, (k, w) :: rest =>
    decide (lo ≤ k) && decide (k < Config.memoryWords) && decide (w ≠ Config.unlistedWord) && Memory.wfFrom (k + 1) rest

/-- The canonical form: addresses strictly rising and below 65,536, no cell equal to what an unlisted address reads
as. Equal memories are equal lists. -/
def Memory.wf (m : Memory) : Bool := Memory.wfFrom 0 m

/-- The canonical form of any list of cells read first cell first. -/
def Memory.canon : Memory → Memory
  | [] => []
  | (k, w) :: rest => if k < Config.memoryWords then Memory.put (Memory.canon rest) k w else Memory.canon rest

/-- Words written to consecutive addresses from `a` up, in order (R231). -/
def Memory.putAll : Memory → Nat → List Word → Memory
  | m, _, [] => m
  | m, a, w :: rest => Memory.putAll (Memory.put m a w) (a + 1) rest

/-- `read_mem(addr)` at an address already in range. -/
def State.load (s : State) (addr : Word) : Word := Memory.read s.mem addr

/-- `write_mem(addr, value)` at an address already in range. -/
def State.store (s : State) (addr v : Word) : State := { s with mem := Memory.write s.mem addr v }

/-! ### The program counter -/

/-- `pc <- target` of a word already in range (R26). -/
def State.setPc (s : State) (target : Word) : State := { s with pc := target }

/-- `ipc`, the address of the instruction being executed: while a handler runs, `pc` holds `ipc + 1` (R105). DEDUCED,
log 4. -/
def State.ipc (s : State) : Word := s.pc - 1

/-! ### Halting and faults -/

/-- `halt(reason)`: the run state becomes Halted and holds the report; nothing else changes (R106, R207). -/
def State.halt (s : State) (reason : HaltReason) : State := { s with run := .halted reason }

/-- The halt report, if the machine has halted (R36). -/
def State.haltReport (s : State) : Option HaltReason :=
  match s.run with
  | .running => none
  | .halted reason => some reason

/-- The Fault value: the raised fault with the opcode and the instruction address added (R200, D13). -/
def Raise.value (r : Raise) (opcode : BitVec 4) (ipc : Word) : FaultValue :=
  match r with
  | .invalidOpcode => .invalidOpcode opcode ipc
  | .addressOutOfRange a => .addressOutOfRange a opcode ipc

/-- TAKING A FAULT, the one operation for every fault: it saves nothing and transfers control nowhere; the run state
becomes Halted with the fault value, and registers, CC, memory and PC stay as they are (R110, R205). There is no return
from it (R206). -/
def State.takeFault (s : State) (r : Raise) (opcode : BitVec 4) (ipc : Word) : State :=
  s.halt (.fault (r.value opcode ipc))

/-- A handler's fault, `raise F`: taken with the instruction's opcode and address. -/
def State.raise (s : State) (i : Instr) (r : Raise) : State := s.takeFault r i.opcode s.ipc

/-- Instruction `i` goes on with the checked address `ea`, or raises AddressOutOfRange before it has written anything
(R44, R110). -/
def State.withAddress (s : State) (i : Instr) (ea : Int) (k : Word → State) : State :=
  match checkAddr ea with
  | .ok a => k a
  | .error r => s.raise i r

/-! ### One cycle (R101) -/

/-- The host checks at the top of a cycle: the stop request, then the cycle limit (R101, R208). -/
def State.hostHalt (s : State) : Option HaltReason :=
  if s.stopRequested then some .stopRequest
  else match s.cycleLimit with
    | none => none
    | some limit => if s.cycles ≥ limit then some .cycleLimit else none

/-- `cycles <- cycles + 1` (R35, R101). -/
def State.countCycle (s : State) : State := { s with cycles := s.cycles + 1 }

/-- `fetch(pc)`: the memory word at the PC, a pure read (R102). -/
def State.fetch (s : State) : Word := Memory.read s.mem s.pc

/-- `advance_pc()`: the PC to the next address, which is checked like any other (R103, D7). -/
def State.advance (s : State) : Except Raise State :=
  match checkAddr (uval s.pc + 1) with
  | .ok next => .ok (s.setPc next)
  | .error r => .error r

/-- The instruction word of an opcode-table row stored where the next fetch reads it. -/
def State.placeWord (s : State) (nbits w : Nat) : State :=
  match tableWord nbits w with
  | some word => s.store s.pc word
  | none => s

/-! ### The host's inputs -/

/-- The host sets the stop request, between cycles (R34, R109; log 6). -/
def State.requestStop (s : State) : State := { s with stopRequested := true }

/-- A trap hook (R191). -/
abbrev TrapHook := BitVec 8 → ArchState → TrapOutcome × ArchState

/-- The default hook: Halt for every vector, no change of state (R192). -/
def defaultTrapHook : TrapHook := fun _ a => (.halt, a)

/-- The hook a TRAP calls: the one the host supplied, or the default (R190, R192). -/
def State.hook (s : State) : TrapHook :=
  match s.trapHook with
  | none => defaultTrapHook
  | some number => Config.hostHook number

/-- The Machine State a hook left, its memory brought to canonical form (log 5). -/
def State.install (s : State) (a : ArchState) : State :=
  { s with mem := Memory.canon a.mem, regs := a.regs, pc := a.pc, cc := a.cc }

/-- A call of a trap hook inside a TRAP cycle: the hook's state is installed, and on Halt the machine halts with
TrapHalt (R190, R106). -/
def State.callHook (s : State) (hook : TrapHook) (vector : BitVec 8) : State :=
  match hook vector s.toArchState with
  | (.continue, a) => s.install a
  | (.halt, a) => (s.install a).halt .trapHalt

end Sys2Proof.Machine
end

