-- ==== Sys2Proof/Machine/Control.lean ====
section
/-! DEFINITION. Control transfer: BR, JMP, JSR, JSRR (spec/42_control.md), and the reserved opcode
(spec/40_dispatch.md R107). `s.pc` is already `ipc + 1` (R105). -/

namespace Sys2Proof.Machine

/-- BR: the target is computed and checked only when the branch is taken (R140, D9). -/
def execBr (n z p : Bool) (pcOffset9 : BitVec 9) (s : State) : Host.Outcome State Fault Refusal :=
  .next (if s.cc.matchesBits n z p then
    s.withAddress (.br n z p pcOffset9) (effectiveAddress s.pc pcOffset9) s.setPc
  else s)

/-- JMP (R141). -/
def execJmp (baseR : Reg) (s : State) : Host.Outcome State Fault Refusal :=
  .next (s.setPc (s.reg baseR))

/-- JSR: the target is checked before R7 is written; the CC is unchanged (R142, C2). -/
def execJsr (pcOffset11 : BitVec 11) (s : State) : Host.Outcome State Fault Refusal :=
  .next (s.withAddress (.jsr pcOffset11) (effectiveAddress s.pc pcOffset11)
    fun target => (s.setReg .r7 s.pc).setPc target)

/-- JSRR: R7 is written first and the base register read after it (R143, C9, D11); the CC is unchanged (C2). -/
def execJsrr (baseR : Reg) (s : State) : Host.Outcome State Fault Refusal :=
  let linked := s.setReg .r7 s.pc
  .next (linked.setPc (linked.reg baseR))

/-- The reserved opcode: always InvalidOpcode(8) (R107, R201). -/
def execInvalid (s : State) : Host.Outcome State Fault Refusal :=
  .next (s.raise .invalid .invalidOpcode)

end Sys2Proof.Machine
end

