-- ==== Sys2Proof/Machine/LoadStore.lean ====
section
/-! DEFINITION. Loads, stores and LEA (spec/43_load_store.md). `s.pc` is already `ipc + 1` (R105); only the first
effective address of an access can fault (R167). -/

namespace Sys2Proof.Machine

/-- LD (R160). -/
def execLd (dr : Reg) (pcOffset9 : BitVec 9) (s : State) : Host.Outcome State Fault Refusal :=
  .next (s.withAddress (.ld dr pcOffset9) (effectiveAddress s.pc pcOffset9)
    fun ea => s.writeReg dr (s.load ea))

/-- LDI (R161). -/
def execLdi (dr : Reg) (pcOffset9 : BitVec 9) (s : State) : Host.Outcome State Fault Refusal :=
  .next (s.withAddress (.ldi dr pcOffset9) (effectiveAddress s.pc pcOffset9)
    fun ea => s.writeReg dr (s.load (s.load ea)))

/-- LDR: the base is read as an unsigned address, before DR is written (R162). -/
def execLdr (dr baseR : Reg) (offset6 : BitVec 6) (s : State) : Host.Outcome State Fault Refusal :=
  .next (s.withAddress (.ldr dr baseR offset6) (effectiveAddress (s.reg baseR) offset6)
    fun ea => s.writeReg dr (s.load ea))

/-- ST (R163). -/
def execSt (sr : Reg) (pcOffset9 : BitVec 9) (s : State) : Host.Outcome State Fault Refusal :=
  .next (s.withAddress (.st sr pcOffset9) (effectiveAddress s.pc pcOffset9)
    fun ea => s.store ea (s.reg sr))

/-- STI (R164). -/
def execSti (sr : Reg) (pcOffset9 : BitVec 9) (s : State) : Host.Outcome State Fault Refusal :=
  .next (s.withAddress (.sti sr pcOffset9) (effectiveAddress s.pc pcOffset9)
    fun ea => s.store (s.load ea) (s.reg sr))

/-- STR (R165). -/
def execStr (sr baseR : Reg) (offset6 : BitVec 6) (s : State) : Host.Outcome State Fault Refusal :=
  .next (s.withAddress (.str sr baseR offset6) (effectiveAddress (s.reg baseR) offset6)
    fun ea => s.store ea (s.reg sr))

/-- LEA: the checked address itself, no memory access (R166, D8). -/
def execLea (dr : Reg) (pcOffset9 : BitVec 9) (s : State) : Host.Outcome State Fault Refusal :=
  .next (s.withAddress (.lea dr pcOffset9) (effectiveAddress s.pc pcOffset9)
    fun ea => s.writeReg dr ea)

end Sys2Proof.Machine
end

