-- ==== Sys2Proof/Machine/Operate.lean ====
section
/-! DEFINITION. The operate instructions ADD, AND, NOT, SHF (spec/41_operate.md). Every source is read before the
destination is written (R130). -/

namespace Sys2Proof.Machine

/-- ADD, register mode (R120, R129). -/
def execAddReg (dr sr1 sr2 : Reg) (s : State) : Host.Outcome State Fault Refusal :=
  .next (s.writeReg dr (s.reg sr1 + s.reg sr2))

/-- ADD, immediate mode (R121, R129). -/
def execAddImm (dr sr1 : Reg) (imm5 : BitVec 5) (s : State) : Host.Outcome State Fault Refusal :=
  .next (s.writeReg dr (s.reg sr1 + sext imm5))

/-- AND, register mode (R122). -/
def execAndReg (dr sr1 sr2 : Reg) (s : State) : Host.Outcome State Fault Refusal :=
  .next (s.writeReg dr (s.reg sr1 &&& s.reg sr2))

/-- AND, immediate mode (R123). -/
def execAndImm (dr sr1 : Reg) (imm5 : BitVec 5) (s : State) : Host.Outcome State Fault Refusal :=
  .next (s.writeReg dr (s.reg sr1 &&& sext imm5))

/-- NOT (R124). -/
def execNot (dr sr : Reg) (s : State) : Host.Outcome State Fault Refusal :=
  .next (s.writeReg dr (~~~ s.reg sr))

/-- LSHF, left logical shift (R125, C1). -/
def execLshf (dr sr : Reg) (amount4 : Nat) (s : State) : Host.Outcome State Fault Refusal :=
  .next (s.writeReg dr (s.reg sr <<< amount4))

/-- RSHFL, right logical shift (R126, C1). -/
def execRshfl (dr sr : Reg) (amount4 : Nat) (s : State) : Host.Outcome State Fault Refusal :=
  .next (s.writeReg dr (s.reg sr >>> amount4))

/-- RSHFA, right arithmetic shift (R127, C1). -/
def execRshfa (dr sr : Reg) (amount4 : Nat) (s : State) : Host.Outcome State Fault Refusal :=
  .next (s.writeReg dr ((s.reg sr).sshiftRight amount4))

/-- SHF with the unassigned mode 10: always InvalidOpcode(13) (R128, R201). -/
def execShfMode10 (s : State) : Host.Outcome State Fault Refusal :=
  .next (s.raise .shfMode10 .invalidOpcode)

end Sys2Proof.Machine
end

