-- ==== Sys2Proof/Machine/Trap.lean ====
section
/-! DEFINITION. TRAP and its hook (spec/44_trap.md). -/

namespace Sys2Proof.Machine

/-- TRAP: a call of the hook with the vector; the core itself writes nothing beyond the advance, saves no return
address and reads no vector table (R190, R193, D16). -/
def execTrap (trapvect8 : BitVec 8) (s : State) : Host.Outcome State Fault Refusal :=
  .next (s.callHook s.hook trapvect8)

end Sys2Proof.Machine
end

