-- ==== Sys2Proof/Machine/Cycle.lean ====
section
/-! DEFINITION. One cycle of a Running machine: count, fetch, advance, decode, dispatch (R101). -/

namespace Sys2Proof.Machine

/-- The cycle proper, after the host checks (R101). An advance fault reports the fetched word's opcode and leaves the
PC where it was (R103, R110). -/
def runCycle (s : State) : Host.Outcome State Fault Refusal :=
  let counted := s.countCycle
  let ir := counted.fetch
  match counted.advance with
  | .error r => .next (counted.takeFault r (extractField ir 12 4) counted.pc)
  | .ok advanced => exec (decode ir) advanced

/-- `cycle()`: the host checks, in order, then the cycle proper (R101, R208). -/
def cycle (s : State) : Host.Outcome State Fault Refusal :=
  match s.hostHalt with
  | some reason => .next (s.halt reason)
  | none => runCycle s

/-- One step of the run loop: a cycle while Running; from Halted there is none (R33, R108; log 2). -/
def runLoop (s : State) : Host.Outcome State Fault Refusal :=
  match s.run with
  | .halted _ => .fault .halted
  | .running => cycle s

end Sys2Proof.Machine
end

