-- ==== Sys2Proof/Machine/Step.lean ====
section
/-! DEFINITION. The machine's step, and the placing of an instruction word where the next step fetches it. -/

namespace Sys2Proof.Machine

/-- One step: one iteration of the run loop (R100, R101). -/
def step : State → Host.Outcome State Fault Refusal := runLoop

/-- `s` with an instruction word of the opcode table stored at the PC, where the next cycle fetches (R102). -/
def State.withFetchWord (s : State) (nbits w : Nat) : State := s.placeWord nbits w

end Sys2Proof.Machine
end

