-- ==== Sys2Proof/Machine/Loader.lean ====
section
/-! DEFINITION. The boot interface: the image loader and the initial state it makes (spec/70_reset_and_hazards.md
R230-R236). -/

namespace Sys2Proof.Machine

/-- Why no engine is constructed (R203, R232). -/
inductive LoadError where
  /-- the stream cannot be opened or read (R232 a) -/
  | streamUnreadable
  /-- fewer than 2 bytes for the origin (R232 b) -/
  | truncatedOrigin
  /-- an odd byte remains at the end (R232 c) -/
  | truncatedBodyWord
  /-- origin + N > 65536 (R232 d) -/
  | imageTooLarge
  deriving DecidableEq, Repr

/-- A program image: its origin, the default substituted for 0, and its body words (R230). -/
structure Image where
  origin : Word
  body : List Word
  deriving DecidableEq, Repr

/-- Two bytes as a word, first byte high (R230). -/
def bigEndian (high low : Byte) : Word := high ++ low

/-- The whole words of a byte stream, in order, and whether an odd byte remains. -/
def bodyWords : List Byte → List Word × Bool
  | [] => ([], false)
  | [_] => ([], true)
  | high :: low :: rest => let (words, odd) := bodyWords rest; (bigEndian high low :: words, odd)

/-- An origin word of 0 means the default origin (R230). -/
def originOf (w : Word) : Word := if w = 0 then Config.defaultOrigin else w

/-- The image does not fit below address 65536 (R232 d). -/
def Image.tooLarge (image : Image) : Bool :=
  decide (image.origin.toNat + image.body.length > Config.memoryWords)

/-- The loader's reading of a stream; `none` is a stream that cannot be opened or read (R230, R232; log 11). -/
def loadImage (stream : Option (List Byte)) : Except LoadError Image :=
  match stream with
  | none => .error .streamUnreadable
  | some (high :: low :: rest) =>
    let (words, odd) := bodyWords rest
    let image : Image := ⟨originOf (bigEndian high low), words⟩
    match odd, image.tooLarge with
    | false, false => .ok image
    | true, false => .error .truncatedBodyWord
    | false, true => .error .imageTooLarge
    | true, true => .error (if Config.loadReportsSizeFirst then .imageTooLarge else .truncatedBodyWord)
  | some _ => .error .truncatedOrigin

/-- The state in which the first cycle begins: the body at the origin, every other word 0, PC at the origin, the rest as
at reset (R231, R234), with the host's two inputs fixed (R235). -/
def Image.initialState (image : Image) (hook : Option Nat) (limit : Option Nat) : State :=
  { State.reset with
    mem := Memory.putAll [] image.origin.toNat image.body
    pc := image.origin
    cycleLimit := limit
    trapHook := hook }

/-- From the engine's inputs to the state in which the first cycle begins, or the LoadError (R235). -/
def boot (stream : Option (List Byte)) (hook : Option Nat) (limit : Option Nat) : Except LoadError State :=
  match loadImage stream with
  | .ok image => .ok (image.initialState hook limit)
  | .error e => .error e

end Sys2Proof.Machine
end

