-- ==== Sys2Proof/Safety.lean ====
section
/-! DEFINITION. The terms the claims use: the machine's invariant, reachable states, when a cycle runs, and what an
instruction may write (R24). -/

namespace Sys2Proof.Machine

/-- The invariant every step keeps: memory is in canonical form, and the cycles begun never exceed the cycle limit
(R35). -/
def State.Inv (s : State) : Prop :=
  Memory.wf s.mem = true ∧ ∀ limit, s.cycleLimit = some limit → s.cycles ≤ limit

/-- The machine is Running and nothing of the host's stops its next cycle (R101). -/
def State.Ready (s : State) : Prop :=
  s.run = .running ∧ s.stopRequested = false ∧ ∀ limit, s.cycleLimit = some limit → s.cycles < limit

/-- The state while the handler of the instruction at `s.pc` runs: the cycle counted, the PC advanced (R101, R105). -/
def State.advanced (s : State) : State := { s with cycles := s.cycles + 1, pc := s.pc + 1 }

/-- The states a run can be in: from a boot, by the machine's steps and the host's stop request, which falls between
cycles (R109). -/
inductive Reachable : State → Prop where
  | boot {stream : Option (List Byte)} {hook limit : Option Nat} {s : State} :
      Sys2Proof.Machine.boot stream hook limit = .ok s → Reachable s
  | step {s t : State} : Reachable s → Sys2Proof.Machine.step s = .next t → Reachable t
  | stop {s : State} : Reachable s → Reachable s.requestStop

/-- The general register an instruction writes (R24). -/
def destReg : Instr → Option Reg
  | .addReg dr _ _ => some dr
  | .addImm dr _ _ => some dr
  | .andReg dr _ _ => some dr
  | .andImm dr _ _ => some dr
  | .not dr _ => some dr
  | .lshf dr _ _ => some dr
  | .rshfl dr _ _ => some dr
  | .rshfa dr _ _ => some dr
  | .shfMode10 => none
  | .br _ _ _ _ => none
  | .jmp _ => none
  | .jsr _ => some .r7
  | .jsrr _ => some .r7
  | .ld dr _ => some dr
  | .ldi dr _ => some dr
  | .ldr dr _ _ => some dr
  | .st _ _ => none
  | .sti _ _ => none
  | .str _ _ _ => none
  | .lea dr _ => some dr
  | .trap _ => none
  | .invalid => none

/-- The flag-setting instructions: ADD, AND, NOT, SHF, LD, LDI, LDR, LEA (R28, C1). -/
def setsFlags : Instr → Bool
  | .addReg _ _ _ => true
  | .addImm _ _ _ => true
  | .andReg _ _ _ => true
  | .andImm _ _ _ => true
  | .not _ _ => true
  | .lshf _ _ _ => true
  | .rshfl _ _ _ => true
  | .rshfa _ _ _ => true
  | .shfMode10 => false
  | .br _ _ _ _ => false
  | .jmp _ => false
  | .jsr _ => false
  | .jsrr _ => false
  | .ld _ _ => true
  | .ldi _ _ => true
  | .ldr _ _ _ => true
  | .st _ _ => false
  | .sti _ _ => false
  | .str _ _ _ => false
  | .lea _ _ => true
  | .trap _ => false
  | .invalid => false

/-- The control-transfer instructions, which alone write the PC beyond the advance (R26). -/
def transfersControl : Instr → Bool
  | .addReg _ _ _ => false
  | .addImm _ _ _ => false
  | .andReg _ _ _ => false
  | .andImm _ _ _ => false
  | .not _ _ => false
  | .lshf _ _ _ => false
  | .rshfl _ _ _ => false
  | .rshfa _ _ _ => false
  | .shfMode10 => false
  | .br _ _ _ _ => true
  | .jmp _ => true
  | .jsr _ => true
  | .jsrr _ => true
  | .ld _ _ => false
  | .ldi _ _ => false
  | .ldr _ _ _ => false
  | .st _ _ => false
  | .sti _ _ => false
  | .str _ _ _ => false
  | .lea _ _ => false
  | .trap _ => false
  | .invalid => false

/-- The Int that an instruction computes in this state and has checked, by the expressions of the meanings; none where it
checks no address: in an untaken BR, and in an instruction that is no row of R202's table (R44, R140, R202). -/
def checkedAddress (s : State) : Instr → Option Int
  | .br n z p off => if s.cc.matchesBits n z p then some (effectiveAddress s.pc off) else none
  | .jsr off => some (effectiveAddress s.pc off)
  | .ld _ off => some (effectiveAddress s.pc off)
  | .ldi _ off => some (effectiveAddress s.pc off)
  | .st _ off => some (effectiveAddress s.pc off)
  | .sti _ off => some (effectiveAddress s.pc off)
  | .lea _ off => some (effectiveAddress s.pc off)
  | .ldr _ baseR off => some (effectiveAddress (s.reg baseR) off)
  | .str _ baseR off => some (effectiveAddress (s.reg baseR) off)
  | .addReg _ _ _ => none
  | .addImm _ _ _ => none
  | .andReg _ _ _ => none
  | .andImm _ _ _ => none
  | .not _ _ => none
  | .lshf _ _ _ => none
  | .rshfl _ _ _ => none
  | .rshfa _ _ _ => none
  | .shfMode10 => none
  | .jmp _ => none
  | .jsrr _ => none
  | .trap _ => none
  | .invalid => none

/-- The checked address as an option: none where the range check faults. -/
def addressOf (ea : Int) : Option Word :=
  match checkAddr ea with
  | .ok a => some a
  | .error _ => none

/-- The address an instruction stores to and the word it stores, if it stores in this state (R163-R165), by the
expressions of the meanings. -/
def storeOf (s : State) : Instr → Option (Word × Word)
  | .st sr off => (addressOf (effectiveAddress s.pc off)).map fun ea => (ea, s.reg sr)
  | .sti sr off => (addressOf (effectiveAddress s.pc off)).map fun ea => (s.load ea, s.reg sr)
  | .str sr baseR off => (addressOf (effectiveAddress (s.reg baseR) off)).map fun ea => (ea, s.reg sr)
  | .addReg _ _ _ => none
  | .addImm _ _ _ => none
  | .andReg _ _ _ => none
  | .andImm _ _ _ => none
  | .not _ _ => none
  | .lshf _ _ _ => none
  | .rshfl _ _ _ => none
  | .rshfa _ _ _ => none
  | .shfMode10 => none
  | .br _ _ _ _ => none
  | .jmp _ => none
  | .jsr _ => none
  | .jsrr _ => none
  | .ld _ _ => none
  | .ldi _ _ => none
  | .ldr _ _ _ => none
  | .lea _ _ => none
  | .trap _ => none
  | .invalid => none

/-- The instruction is carried out by the core alone: it is no TRAP, or the default hook answers it (R24, R192). -/
def coreOnly (i : Instr) (s : State) : Prop :=
  (∃ v, i = .trap v) → s.trapHook = none

end Sys2Proof.Machine
end

