-- ==== Sys2Proof/Certificates/Slice0/Obligations.lean ====
section
/-! DEFINITION. The statements for the provers. In each, `s.pc` of a state an instruction is executed in is the advanced
PC, `ipc + 1` (R105), so the instruction's own address is `s.pc - 1`. "Log n" is notes/assumptions/n.md, "D n" a
decision of spec/92_eei_decisions.md. -/

open Sys2Proof Sys2Proof.Machine

/-! ### Encoding -/

/-- R63, R64, R65: decoding the encoded word of a well-formed instruction gives the instruction back, every operand at
every value. Rests on the spec's decisions D1, D2, D4 and on log 7 (what the encoder writes in ignored bits). -/
def Obligations.DecodeInvertsEncode : Prop :=
  ∀ i : Instr, i.wf = true → decode (encode i) = i

/-- R66, R69: the decoder reads every bit the format does not ignore, and no other: a word and the encoding of what it
decodes to agree outside the ignored bits, and changing ignored bits changes nothing. Rests on D1-D5. -/
def Obligations.DecodeReadsExactlyTheUsedBits : Prop :=
  ∀ w : Word,
    encode (decode w) &&& ~~~ (decode w).ignoredBits = w &&& ~~~ (decode w).ignoredBits ∧
    ∀ m : Word, decode (w ^^^ (m &&& (decode w).ignoredBits)) = decode w

/-- R63, R64, R67, spec/opcode_table.json: every word belongs to exactly one of the 22 rows, and decodes to that row's
instruction with that row's fields. Rests on D1, D2, D4, D5. -/
def Obligations.EveryWordIsDecodedByItsOneTableRow : Prop :=
  opcodeTable.length = 22 ∧
  ∀ w : Word, ∃ row ∈ opcodeTable, row.covers w = true ∧ decode w = row.build w ∧
    (opcodeTable.filter fun r => r.covers w).length = 1

/-- R65: what the decoder reads is well-formed. -/
def Obligations.DecodedInstructionsAreWellFormed : Prop :=
  ∀ w : Word, (decode w).wf = true

/-- R67: the illegal encodings are the words of opcode 8 and those of opcode 13 with mode 10, and no other. Rests on D1,
D4, D5. -/
def Obligations.IllegalEncodingsAreExactlyThese : Prop :=
  ∀ w : Word,
    (decode w = .invalid ↔ w.extractLsb' 12 4 = 0b1000#4) ∧
    (decode w = .shfMode10 ↔ w.extractLsb' 12 4 = 0b1101#4 ∧ w.extractLsb' 4 2 = 0b10#2)

/-- Words of the spec's examples (R120-R127, R140-R143, R160-R166, R190, R107, R128) decode to the instructions they
stand for: a sanity statement. Rests on D1, D2, D4. -/
def Obligations.ExampleWordsDecode : Prop :=
  decode 0x1401 = .addReg .r2 .r0 .r1 ∧ decode 0x123F = .addImm .r1 .r0 0x1F ∧
  decode 0xD234 = .rshfa .r1 .r0 4 ∧ decode 0x0805 = .br true false false 5 ∧
  decode 0xC1C0 = .jmp .r7 ∧ decode 0x4804 = .jsr 4 ∧ decode 0x4080 = .jsrr .r2 ∧
  decode 0xA001 = .ldi .r0 1 ∧ decode 0x773F = .str .r3 .r4 0x3F ∧ decode 0xF025 = .trap 0x25 ∧
  decode 0x8000 = .invalid ∧ decode 0xD223 = .shfMode10

/-! ### Values, registers, memory -/

/-- R7: `classify` is Zero iff the value is 0, Negative iff bit 15 is set, Positive otherwise; and it is the only source
of CC updates: whatever the core carries out, the CC is afterwards what it was or the class of a value held in a
register. -/
def Obligations.ClassifyIsTheOnlySourceOfFlags : Prop :=
  (∀ v : Word, (classify v = .z ↔ v = 0) ∧ (classify v = .n ↔ v.getLsbD 15 = true) ∧
    (classify v = .p ↔ v ≠ 0 ∧ v.getLsbD 15 = false)) ∧
  ∀ (i : Instr) (s t : State), coreOnly i s → exec i s = .next t →
    t.cc = s.cc ∨ ∃ r : Reg, destReg i = some r ∧ t.cc = classify (t.regs.get r)

/-- R6: the sign extension of the low N bits of a value: bits below N are the value's, the others are its bit N-1, bits
of the value above N-1 do not matter, and the result lies in -2^(N-1)..2^(N-1)-1. -/
def Obligations.SignExtensionIsExact : Prop :=
  ∀ (n : Nat) (v : Word), 0 < n → n ≤ 16 →
    (∀ k, k < 16 → (sext (v.extractLsb' 0 n)).getLsbD k = if k < n then v.getLsbD k else v.getLsbD (n - 1)) ∧
    -(2 : Int) ^ (n - 1) ≤ sval (sext (v.extractLsb' 0 n)) ∧ sval (sext (v.extractLsb' 0 n)) < 2 ^ (n - 1)

/-- R21: eight independent registers, none hard-wired and none an alias of another: each index 0..7 names its own
register, a write is read back, and it changes no other register. -/
def Obligations.RegistersAreIndependent : Prop :=
  (∀ b : BitVec 3, (Reg.ofBits b).toBits = b) ∧ (∀ r : Reg, Reg.ofBits r.toBits = r) ∧
  ∀ (regs : Regs) (r q : Reg) (v : Word), (regs.set r v).get q = if q = r then v else regs.get q

/-- R47: `MemWrite` replaces the word at its address and changes no other word and no other state. That it is said of
canonical memory, which every step keeps, and that the memory written is canonical again, is the model's own form of
memory (log 1, DEDUCED), no rule of the spec. -/
def Obligations.MemoryWriteReplacesOneWord : Prop :=
  (∀ (s : State) (a v : Word), s.store a v = { s with mem := Memory.write s.mem a v }) ∧
  ∀ (m : Memory) (a v : Word), Memory.wf m = true →
    Memory.wf (Memory.write m a v) = true ∧
    ∀ b : Word, Memory.read (Memory.write m a v) b = if b = a then v else Memory.read m b

/-- The model's canonical form (log 1): memories that read alike at every address are equal. -/
def Obligations.CanonicalMemoriesThatReadAlikeAreEqual : Prop :=
  ∀ m m' : Memory, Memory.wf m = true → Memory.wf m' = true →
    (∀ a : Word, Memory.read m a = Memory.read m' a) → m = m'

/-! ### Operate instructions -/

/-- R120, R129: ADD, register mode. DR takes the sum modulo 2^16, CC its class; nothing else changes and nothing
faults, whichever registers coincide. Rests on D1, D2, D3, D6, D27. -/
def Obligations.AddRegisterModeAddsModulo : Prop :=
  (∀ w : Word, w.extractLsb' 12 4 = 0b0001#4 → w.extractLsb' 5 1 = 0#1 →
    decode w = .addReg (regField w 9) (regField w 6) (regField w 0)) ∧
  ∀ (dr sr1 sr2 : Reg) (s : State) (v : Word),
    v.toNat = ((s.regs.get sr1).toNat + (s.regs.get sr2).toNat) % 65536 →
    exec (.addReg dr sr1 sr2) s = .next { s with regs := s.regs.set dr v, cc := classify v }

/-- R121, R129: ADD, immediate mode. Rests on D1, D2, D6, D27. -/
def Obligations.AddImmediateModeAddsModulo : Prop :=
  (∀ w : Word, w.extractLsb' 12 4 = 0b0001#4 → w.extractLsb' 5 1 = 1#1 →
    decode w = .addImm (regField w 9) (regField w 6) (w.extractLsb' 0 5)) ∧
  ∀ (dr sr1 : Reg) (imm5 : BitVec 5) (s : State) (v : Word),
    (v.toNat : Int) = ((s.regs.get sr1).toNat + imm5.toInt) % 65536 →
    exec (.addImm dr sr1 imm5) s = .next { s with regs := s.regs.set dr v, cc := classify v }

/-- R122: AND, register mode. Rests on D1, D2, D3, D27. -/
def Obligations.AndRegisterModeAndsEachBit : Prop :=
  (∀ w : Word, w.extractLsb' 12 4 = 0b0101#4 → w.extractLsb' 5 1 = 0#1 →
    decode w = .andReg (regField w 9) (regField w 6) (regField w 0)) ∧
  ∀ (dr sr1 sr2 : Reg) (s : State) (v : Word),
    (∀ k, k < 16 → v.getLsbD k = ((s.regs.get sr1).getLsbD k && (s.regs.get sr2).getLsbD k)) →
    exec (.andReg dr sr1 sr2) s = .next { s with regs := s.regs.set dr v, cc := classify v }

/-- R123: AND, immediate mode; the immediate is sign-extended, so bits 4 to 15 of the mask are its bit 4. Rests on D1,
D2, D27. -/
def Obligations.AndImmediateModeAndsEachBit : Prop :=
  (∀ w : Word, w.extractLsb' 12 4 = 0b0101#4 → w.extractLsb' 5 1 = 1#1 →
    decode w = .andImm (regField w 9) (regField w 6) (w.extractLsb' 0 5)) ∧
  ∀ (dr sr1 : Reg) (imm5 : BitVec 5) (s : State) (v : Word),
    (∀ k, k < 16 → v.getLsbD k = ((s.regs.get sr1).getLsbD k && imm5.getLsbD (min k 4))) →
    exec (.andImm dr sr1 imm5) s = .next { s with regs := s.regs.set dr v, cc := classify v }

/-- R124: NOT complements all 16 bits. Rests on D1, D2, D3, D27. -/
def Obligations.NotComplementsEachBit : Prop :=
  (∀ w : Word, w.extractLsb' 12 4 = 0b1001#4 → decode w = .not (regField w 9) (regField w 6)) ∧
  ∀ (dr sr : Reg) (s : State) (v : Word),
    (∀ k, k < 16 → v.getLsbD k = !(s.regs.get sr).getLsbD k) →
    exec (.not dr sr) s = .next { s with regs := s.regs.set dr v, cc := classify v }

/-- R125: LSHF multiplies by 2^amount modulo 2^16 and sets the CC (C1). Rests on D1, D2, D4, D27. -/
def Obligations.LshfShiftsLeft : Prop :=
  (∀ w : Word, w.extractLsb' 12 4 = 0b1101#4 → w.extractLsb' 4 2 = 0b00#2 →
    decode w = .lshf (regField w 9) (regField w 6) (w.extractLsb' 0 4).toNat) ∧
  ∀ (dr sr : Reg) (amount4 : Nat) (s : State) (v : Word), amount4 < 16 →
    v.toNat = (s.regs.get sr).toNat * 2 ^ amount4 % 65536 →
    exec (.lshf dr sr amount4) s = .next { s with regs := s.regs.set dr v, cc := classify v }

/-- R126: RSHFL divides the unsigned value by 2^amount and sets the CC (C1). Rests on D1, D2, D4, D27. -/
def Obligations.RshflShiftsRightWithZeros : Prop :=
  (∀ w : Word, w.extractLsb' 12 4 = 0b1101#4 → w.extractLsb' 4 2 = 0b01#2 →
    decode w = .rshfl (regField w 9) (regField w 6) (w.extractLsb' 0 4).toNat) ∧
  ∀ (dr sr : Reg) (amount4 : Nat) (s : State) (v : Word), amount4 < 16 →
    v.toNat = (s.regs.get sr).toNat / 2 ^ amount4 →
    exec (.rshfl dr sr amount4) s = .next { s with regs := s.regs.set dr v, cc := classify v }

/-- R127: RSHFA is the floor of the signed value over 2^amount and sets the CC (C1). Rests on D1, D2, D4, D27. -/
def Obligations.RshfaShiftsRightWithSign : Prop :=
  (∀ w : Word, w.extractLsb' 12 4 = 0b1101#4 → w.extractLsb' 4 2 = 0b11#2 →
    decode w = .rshfa (regField w 9) (regField w 6) (w.extractLsb' 0 4).toNat) ∧
  ∀ (dr sr : Reg) (amount4 : Nat) (s : State) (v : Word), amount4 < 16 →
    v.toInt = Int.fdiv (s.regs.get sr).toInt (2 ^ amount4) →
    exec (.rshfa dr sr amount4) s = .next { s with regs := s.regs.set dr v, cc := classify v }

/-- R128, R201: SHF with mode 10 halts with InvalidOpcode(13) at its own address; registers, CC, memory and the advanced
PC stay. Rests on D1, D4, D5, D12, D13. -/
def Obligations.ShfModeTenHaltsWithInvalidOpcode : Prop :=
  (∀ w : Word, w.extractLsb' 12 4 = 0b1101#4 → w.extractLsb' 4 2 = 0b10#2 → decode w = .shfMode10) ∧
  ∀ s : State, exec .shfMode10 s = .next { s with run := .halted (.fault (.invalidOpcode 13 (s.pc - 1))) }

/-! ### Control transfer -/

/-- R140: BR. With no asserted bit matching the CC nothing changes, whatever the offset; taken, the PC becomes the
target, or the machine halts with AddressOutOfRange and the PC stays advanced. Rests on D1, D2, D9, D12, D13. -/
def Obligations.BranchGoesWhereTheFlagsSay : Prop :=
  (∀ w : Word, w.extractLsb' 12 4 = 0b0000#4 →
    decode w = .br (w.getLsbD 11) (w.getLsbD 10) (w.getLsbD 9) (w.extractLsb' 0 9)) ∧
  ∀ (n z p : Bool) (off : BitVec 9) (s : State),
    (¬ (n = true ∧ s.cc = .n ∨ z = true ∧ s.cc = .z ∨ p = true ∧ s.cc = .p) →
      exec (.br n z p off) s = .next s) ∧
    ((n = true ∧ s.cc = .n ∨ z = true ∧ s.cc = .z ∨ p = true ∧ s.cc = .p) →
      (∀ a : Word, (a.toNat : Int) = s.pc.toNat + off.toInt → exec (.br n z p off) s = .next { s with pc := a }) ∧
      (((s.pc.toNat : Int) + off.toInt < 0 ∨ 65535 < (s.pc.toNat : Int) + off.toInt) →
        exec (.br n z p off) s = .next { s with
          run := .halted (.fault (.addressOutOfRange ((s.pc.toNat : Int) + off.toInt) 0 (s.pc - 1))) }))

/-- R141: JMP sets the PC from the base register; no fault. Rests on D1, D2, D3. -/
def Obligations.JumpGoesToTheBaseRegister : Prop :=
  (∀ w : Word, w.extractLsb' 12 4 = 0b1100#4 → decode w = .jmp (regField w 6)) ∧
  ∀ (base : Reg) (s : State), exec (.jmp base) s = .next { s with pc := s.regs.get base }

/-- R142: JSR. R7 takes the return address, the PC the target, the CC stays; out of range nothing is written. Rests on
D1, D2, D10, D12, D13. -/
def Obligations.JsrLinksAndJumps : Prop :=
  (∀ w : Word, w.extractLsb' 12 4 = 0b0100#4 → w.extractLsb' 11 1 = 1#1 → decode w = .jsr (w.extractLsb' 0 11)) ∧
  ∀ (off : BitVec 11) (s : State),
    (∀ a : Word, (a.toNat : Int) = s.pc.toNat + off.toInt →
      exec (.jsr off) s = .next { s with regs := s.regs.set .r7 s.pc, pc := a }) ∧
    (((s.pc.toNat : Int) + off.toInt < 0 ∨ 65535 < (s.pc.toNat : Int) + off.toInt) →
      exec (.jsr off) s = .next { s with
        run := .halted (.fault (.addressOutOfRange ((s.pc.toNat : Int) + off.toInt) 4 (s.pc - 1))) })

/-- R143: JSRR. R7 takes the return address and the PC the base register; with base R7, read after the write, the PC
stays. The CC stays. Rests on D1, D2, D3, D10, D11. -/
def Obligations.JsrrLinksThenReadsTheBase : Prop :=
  (∀ w : Word, w.extractLsb' 12 4 = 0b0100#4 → w.extractLsb' 11 1 = 0#1 → decode w = .jsrr (regField w 6)) ∧
  ∀ (base : Reg) (s : State),
    (base ≠ .r7 → exec (.jsrr base) s = .next { s with regs := s.regs.set .r7 s.pc, pc := s.regs.get base }) ∧
    (base = .r7 → exec (.jsrr base) s = .next { s with regs := s.regs.set .r7 s.pc })

/-! ### Loads, stores, LEA -/

/-- R160: LD. Rests on D1, D2, D12, D13. -/
def Obligations.LdLoadsThePcRelativeWord : Prop :=
  (∀ w : Word, w.extractLsb' 12 4 = 0b0010#4 → decode w = .ld (regField w 9) (w.extractLsb' 0 9)) ∧
  ∀ (dr : Reg) (off : BitVec 9) (s : State),
    (∀ a : Word, (a.toNat : Int) = s.pc.toNat + off.toInt → exec (.ld dr off) s = .next { s with
      regs := s.regs.set dr (Memory.read s.mem a), cc := classify (Memory.read s.mem a) }) ∧
    (((s.pc.toNat : Int) + off.toInt < 0 ∨ 65535 < (s.pc.toNat : Int) + off.toInt) →
      exec (.ld dr off) s = .next { s with
        run := .halted (.fault (.addressOutOfRange ((s.pc.toNat : Int) + off.toInt) 2 (s.pc - 1))) })

/-- R161: LDI; only the first address can fault. Rests on D1, D2, D12, D13. -/
def Obligations.LdiLoadsThroughThePointer : Prop :=
  (∀ w : Word, w.extractLsb' 12 4 = 0b1010#4 → decode w = .ldi (regField w 9) (w.extractLsb' 0 9)) ∧
  ∀ (dr : Reg) (off : BitVec 9) (s : State),
    (∀ a : Word, (a.toNat : Int) = s.pc.toNat + off.toInt → exec (.ldi dr off) s = .next { s with
      regs := s.regs.set dr (Memory.read s.mem (Memory.read s.mem a)),
      cc := classify (Memory.read s.mem (Memory.read s.mem a)) }) ∧
    (((s.pc.toNat : Int) + off.toInt < 0 ∨ 65535 < (s.pc.toNat : Int) + off.toInt) →
      exec (.ldi dr off) s = .next { s with
        run := .halted (.fault (.addressOutOfRange ((s.pc.toNat : Int) + off.toInt) 10 (s.pc - 1))) })

/-- R162: LDR; the base is an unsigned address, read before DR is written. Rests on D1, D2, D12, D13, D27. -/
def Obligations.LdrLoadsTheBaseOffsetWord : Prop :=
  (∀ w : Word, w.extractLsb' 12 4 = 0b0110#4 →
    decode w = .ldr (regField w 9) (regField w 6) (w.extractLsb' 0 6)) ∧
  ∀ (dr base : Reg) (off : BitVec 6) (s : State),
    (∀ a : Word, (a.toNat : Int) = (s.regs.get base).toNat + off.toInt → exec (.ldr dr base off) s = .next { s with
      regs := s.regs.set dr (Memory.read s.mem a), cc := classify (Memory.read s.mem a) }) ∧
    ((((s.regs.get base).toNat : Int) + off.toInt < 0 ∨ 65535 < ((s.regs.get base).toNat : Int) + off.toInt) →
      exec (.ldr dr base off) s = .next { s with
        run := .halted (.fault (.addressOutOfRange (((s.regs.get base).toNat : Int) + off.toInt) 6 (s.pc - 1))) })

/-- R163: ST. The word at the effective address becomes SR's; every other word, and all else, stays. Rests on D1, D2,
D12, D13. -/
def Obligations.StStoresThePcRelativeWord : Prop :=
  (∀ w : Word, w.extractLsb' 12 4 = 0b0011#4 → decode w = .st (regField w 9) (w.extractLsb' 0 9)) ∧
  ∀ (sr : Reg) (off : BitVec 9) (s : State),
    (∀ a : Word, Memory.wf s.mem = true → (a.toNat : Int) = s.pc.toNat + off.toInt →
      ∃ m : Memory, exec (.st sr off) s = .next { s with mem := m } ∧
        ∀ b : Word, Memory.read m b = if b = a then s.regs.get sr else Memory.read s.mem b) ∧
    (((s.pc.toNat : Int) + off.toInt < 0 ∨ 65535 < (s.pc.toNat : Int) + off.toInt) →
      exec (.st sr off) s = .next { s with
        run := .halted (.fault (.addressOutOfRange ((s.pc.toNat : Int) + off.toInt) 3 (s.pc - 1))) })

/-- R164: STI; the address stored to is the pointer word. Rests on D1, D2, D12, D13. -/
def Obligations.StiStoresThroughThePointer : Prop :=
  (∀ w : Word, w.extractLsb' 12 4 = 0b1011#4 → decode w = .sti (regField w 9) (w.extractLsb' 0 9)) ∧
  ∀ (sr : Reg) (off : BitVec 9) (s : State),
    (∀ a : Word, Memory.wf s.mem = true → (a.toNat : Int) = s.pc.toNat + off.toInt →
      ∃ m : Memory, exec (.sti sr off) s = .next { s with mem := m } ∧
        ∀ b : Word, Memory.read m b = if b = Memory.read s.mem a then s.regs.get sr else Memory.read s.mem b) ∧
    (((s.pc.toNat : Int) + off.toInt < 0 ∨ 65535 < (s.pc.toNat : Int) + off.toInt) →
      exec (.sti sr off) s = .next { s with
        run := .halted (.fault (.addressOutOfRange ((s.pc.toNat : Int) + off.toInt) 11 (s.pc - 1))) })

/-- R165: STR. Rests on D1, D2, D12, D13. -/
def Obligations.StrStoresTheBaseOffsetWord : Prop :=
  (∀ w : Word, w.extractLsb' 12 4 = 0b0111#4 →
    decode w = .str (regField w 9) (regField w 6) (w.extractLsb' 0 6)) ∧
  ∀ (sr base : Reg) (off : BitVec 6) (s : State),
    (∀ a : Word, Memory.wf s.mem = true → (a.toNat : Int) = (s.regs.get base).toNat + off.toInt →
      ∃ m : Memory, exec (.str sr base off) s = .next { s with mem := m } ∧
        ∀ b : Word, Memory.read m b = if b = a then s.regs.get sr else Memory.read s.mem b) ∧
    ((((s.regs.get base).toNat : Int) + off.toInt < 0 ∨ 65535 < ((s.regs.get base).toNat : Int) + off.toInt) →
      exec (.str sr base off) s = .next { s with
        run := .halted (.fault (.addressOutOfRange (((s.regs.get base).toNat : Int) + off.toInt) 7 (s.pc - 1))) })

/-- R166: LEA gives the address itself and accesses no memory. Rests on D1, D2, D8, D12, D13. -/
def Obligations.LeaGivesTheAddress : Prop :=
  (∀ w : Word, w.extractLsb' 12 4 = 0b1110#4 → decode w = .lea (regField w 9) (w.extractLsb' 0 9)) ∧
  ∀ (dr : Reg) (off : BitVec 9) (s : State),
    (∀ a : Word, (a.toNat : Int) = s.pc.toNat + off.toInt →
      exec (.lea dr off) s = .next { s with regs := s.regs.set dr a, cc := classify a }) ∧
    (((s.pc.toNat : Int) + off.toInt < 0 ∨ 65535 < (s.pc.toNat : Int) + off.toInt) →
      exec (.lea dr off) s = .next { s with
        run := .halted (.fault (.addressOutOfRange ((s.pc.toNat : Int) + off.toInt) 14 (s.pc - 1))) })

/-! ### TRAP and the reserved opcode -/

/-- R192: the default hook is Halt for every vector and changes no state. R190, R106: so with no hook supplied every TRAP
halts with TrapHalt; that the core itself writes nothing, neither R7 nor the PC beyond the advance, is the spec's decision
D16 (log 9). In canonical memory, the model's own form (log 1). -/
def Obligations.DefaultTrapHookHaltsAndChangesNothing : Prop :=
  (∀ (v : BitVec 8) (a : ArchState), defaultTrapHook v a = (.halt, a)) ∧
  ∀ (v : BitVec 8) (s : State), Memory.wf s.mem = true → s.trapHook = none →
    exec (.trap v) s = .next { s with run := .halted .trapHalt }

/-- R190, R191: TRAP calls the supplied hook with the vector and the whole Machine State, whatever the hook is; the
registers, PC, CC and memory are what the hook left, on Halt the machine halts with TrapHalt, on Continue it stays as
it runs, and the rest is untouched (log 13). The hook is the free value of log 5. Rests on D1, D2, D3, D16, D22. -/
def Obligations.TrapRunsTheSuppliedHook : Prop :=
  (∀ w : Word, w.extractLsb' 12 4 = 0b1111#4 → decode w = .trap (w.extractLsb' 0 8)) ∧
  ∀ (v : BitVec 8) (s : State) (hook : Nat), s.trapHook = some hook →
    ∃ m : Memory, Memory.wf m = true ∧
      (∀ a : Word, Memory.read m a = Memory.read (Config.hostHook hook v s.toArchState).2.mem a) ∧
      exec (.trap v) s = .next { s with
        mem := m
        regs := (Config.hostHook hook v s.toArchState).2.regs
        pc := (Config.hostHook hook v s.toArchState).2.pc
        cc := (Config.hostHook hook v s.toArchState).2.cc
        run := if (Config.hostHook hook v s.toArchState).1 = .halt then .halted .trapHalt else s.run }

/-- R107, R201: the reserved opcode halts with InvalidOpcode(8) at its own address; registers, CC, memory and the
advanced PC stay. Rests on D1, D3, D12, D13. -/
def Obligations.ReservedOpcodeHaltsWithInvalidOpcode : Prop :=
  (∀ w : Word, w.extractLsb' 12 4 = 0b1000#4 → decode w = .invalid) ∧
  ∀ s : State, exec .invalid s = .next { s with run := .halted (.fault (.invalidOpcode 8 (s.pc - 1))) }

/-! ### What instructions leave alone -/

/-- R22, R24: only the destination register changes (R7 for JSR and JSRR); with a fault none does. -/
def Obligations.OnlyTheDestinationRegisterChanges : Prop :=
  ∀ (i : Instr) (s t : State), s.run = .running → coreOnly i s → exec i s = .next t →
    (∀ r : Reg, destReg i ≠ some r → t.regs.get r = s.regs.get r) ∧ (t.run ≠ .running → t.regs = s.regs)

/-- R28, R29: the CC is written by, and only by, ADD, AND, NOT, SHF, LD, LDI, LDR and LEA, each with the class of the
word it writes to its destination register; an instruction that faults does not write it, and under a supplied hook the
core part of TRAP leaves the CC as the hook left it. Rests on the spec's decisions and choices (log 9): SHF sets the CC
(C1), JSR and JSRR leave it (D10, C2), a faulting instruction leaves it (D12), the core part of TRAP writes nothing
(D16). -/
def Obligations.FlagsFollowTheDestinationOfFlagSetters : Prop :=
  (∀ (i : Instr) (s t : State), s.run = .running → coreOnly i s → exec i s = .next t →
    (setsFlags i = true → t.run = .running → ∃ dr : Reg, destReg i = some dr ∧ t.cc = classify (t.regs.get dr)) ∧
    (setsFlags i = false → t.cc = s.cc) ∧
    (t.run ≠ .running → t.cc = s.cc)) ∧
  ∀ (v : BitVec 8) (s t : State), exec (.trap v) s = .next t → t.cc = (s.hook v s.toArchState).2.cc

/-- R26: only BR, JMP, JSR and JSRR write the PC beyond the advance, and a faulting one does not. Rests on D12. -/
def Obligations.OnlyControlTransfersWriteThePc : Prop :=
  ∀ (i : Instr) (s t : State), s.run = .running → coreOnly i s → exec i s = .next t →
    (transfersControl i = false → t.pc = s.pc) ∧ (t.run ≠ .running → t.pc = s.pc)

/-- R47, R163-R165: every word of memory but the one stored to reads as before; the one stored to, at the address the
meaning computes, reads as SR. What stores nothing leaves memory as it is. -/
def Obligations.OnlyTheStoredWordOfMemoryChanges : Prop :=
  ∀ (i : Instr) (s t : State), Memory.wf s.mem = true → coreOnly i s → exec i s = .next t →
    (∀ a v : Word, storeOf s i = some (a, v) →
      Memory.read t.mem a = v ∧ ∀ b : Word, b ≠ a → Memory.read t.mem b = Memory.read s.mem b) ∧
    (storeOf s i = none → t.mem = s.mem)

/-- R34: the stop request is read at the top of each cycle, where it halts the machine before anything else happens; the
host may set it in any state and sets nothing else; no instruction reads or writes it. Rests on D18 (it halts with
StopRequest, ahead of a reached cycle limit) and on the model's own log 6 (`requestStop` is the host's move) and log 13 (a
TRAP under a supplied hook neither reads nor writes it). -/
def Obligations.StopRequestHaltsAtTheTopOfACycle : Prop :=
  (∀ s : State, s.run = .running → s.stopRequested = true →
    step s = .next { s with run := .halted .stopRequest }) ∧
  (∀ s : State, s.requestStop = { s with stopRequested := true }) ∧
  ∀ (i : Instr) (s t : State) (b : Bool), exec i s = .next t →
    t.stopRequested = s.stopRequested ∧
    exec i { s with stopRequested := b } = .next { t with stopRequested := b }

/-- R34, R35, R191: no instruction reads or writes the cycle counter, the cycle limit or the stop request, and none
writes which hook is supplied. That this holds of a TRAP under a supplied hook is the model's log 13. -/
def Obligations.InstructionsNeitherReadNorWriteTheHostSide : Prop :=
  ∀ (i : Instr) (s t : State) (c : Nat) (b : Bool) (l : Option Nat), exec i s = .next t →
    t.cycles = s.cycles ∧ t.stopRequested = s.stopRequested ∧ t.cycleLimit = s.cycleLimit ∧ t.trapHook = s.trapHook ∧
    exec i { s with cycles := c, stopRequested := b, cycleLimit := l } =
      .next { t with cycles := c, stopRequested := b, cycleLimit := l }

/-! ### The cycle -/

/-- R101-R105: a Running machine that the host does not stop, with its PC below 0xFFFF, runs exactly the instruction
decoded from the word at its PC, the cycle counted and the PC advanced. -/
def Obligations.StepRunsTheDecodedInstruction : Prop :=
  ∀ s : State, s.Ready → s.pc ≠ 0xFFFF →
    step s = exec (decode (Memory.read s.mem s.pc)) { s with cycles := s.cycles + 1, pc := s.pc + 1 }

/-- R101, R208: the cycle limit, tested after the stop request, halts the machine before the cycle begins. Rests on
D17, D18. -/
def Obligations.CycleLimitHaltsBeforeTheNextCycle : Prop :=
  ∀ (s : State) (limit : Nat), s.run = .running → s.stopRequested = false → s.cycleLimit = some limit →
    limit ≤ s.cycles → step s = .next { s with run := .halted .cycleLimit }

/-- R103, R110: from 0xFFFF there is no next address: the cycle is counted and the machine halts with
AddressOutOfRange(65536), the PC still 0xFFFF and the instruction there not executed. Rests on D7, D12, D13. -/
def Obligations.AdvanceFromTheTopAddressFaults : Prop :=
  ∀ s : State, s.Ready → s.pc = 0xFFFF →
    step s = .next { s with
      cycles := s.cycles + 1
      run := .halted (.fault (.addressOutOfRange 65536 ((Memory.read s.mem 0xFFFF).extractLsb' 12 4) 0xFFFF)) }

/-- R108: Halted is terminal: from a Halted state there is no step, for every number of steps. -/
def Obligations.HaltedIsTerminal : Prop :=
  ∀ (s : State) (r : HaltReason), s.run = .halted r →
    (∀ t : State, step s ≠ .next t) ∧ ∀ (k : Nat) (t : State), core.run (k + 1) s ≠ .next t

/-- R101, R211: every instruction has an effect in every state, and every Running machine a next state. The model
refuses nothing. -/
def Obligations.EveryInstructionAndEveryRunningStepCompletes : Prop :=
  (∀ (i : Instr) (s : State), ∃ t : State, exec i s = .next t) ∧
  ∀ s : State, s.run = .running → ∃ t : State, step s = .next t ∧ (t.cycles = s.cycles ∨ t.cycles = s.cycles + 1)

/-- R106: an instruction leaves the machine Running, or, only a TRAP, halts it with TrapHalt, or halts it with a fault;
stop request and cycle limit are never an instruction's. -/
def Obligations.HandlersContinueHaltByTrapOrFault : Prop :=
  ∀ (i : Instr) (s t : State), s.run = .running → exec i s = .next t →
    t.run = .running ∨ (t.run = .halted .trapHalt ∧ ∃ v : BitVec 8, i = .trap v) ∨
    ((∃ f : FaultValue, t.run = .halted (.fault f)) ∧ ∀ v : BitVec 8, i ≠ .trap v)

/-- R207, R208, R201, R202: a step of a Running machine goes on or halts for one of the five reasons, and for each reason,
when. `at'` is the instruction's own address. Rests on D5, D7, D8, D9, D12, D13, D17, D18, D21. -/
def Obligations.HaltReasonsAreExactlyTheFive : Prop :=
  ∀ s t : State, s.run = .running → step s = .next t →
    (t.run = .halted .stopRequest ↔ s.stopRequested = true) ∧
    (t.run = .halted .cycleLimit ↔
      s.stopRequested = false ∧ ∃ limit : Nat, s.cycleLimit = some limit ∧ limit ≤ s.cycles) ∧
    (t.run = .halted .trapHalt ↔ s.Ready ∧ s.pc ≠ 0xFFFF ∧ ∃ v : BitVec 8,
      decode (Memory.read s.mem s.pc) = .trap v ∧ (s.hook v s.advanced.toArchState).1 = .halt) ∧
    (∀ (op : BitVec 4) (at' : Word), t.run = .halted (.fault (.invalidOpcode op at')) ↔
      s.Ready ∧ s.pc ≠ 0xFFFF ∧ at' = s.pc ∧
        (decode (Memory.read s.mem s.pc) = .invalid ∧ op = 8 ∨ decode (Memory.read s.mem s.pc) = .shfMode10 ∧ op = 13)) ∧
    (∀ (a : Int) (op : BitVec 4) (at' : Word), t.run = .halted (.fault (.addressOutOfRange a op at')) ↔
      s.Ready ∧ at' = s.pc ∧ op = (Memory.read s.mem s.pc).extractLsb' 12 4 ∧
        (s.pc = 0xFFFF ∧ a = 65536 ∨
          s.pc ≠ 0xFFFF ∧ checkedAddress s.advanced (decode (Memory.read s.mem s.pc)) = some a ∧ (a < 0 ∨ 65535 < a))) ∧
    ((∃ f : FaultValue, t.run = .halted (.fault f)) → s.Ready) ∧
    (t.run = .running ∨ t.run = .halted .stopRequest ∨ t.run = .halted .cycleLimit ∨ t.run = .halted .trapHalt ∨
      (∃ (op : BitVec 4) (at' : Word), t.run = .halted (.fault (.invalidOpcode op at'))) ∨
      ∃ (a : Int) (op : BitVec 4) (at' : Word), t.run = .halted (.fault (.addressOutOfRange a op at')))

/-- R202: every AddressOutOfRange a step reports carries the fetched word's opcode and the instruction's own address, is
raised by an instruction of R202's table, and its address lies in that table's range. Rests on D7, D8, D12, D13. -/
def Obligations.AddressFaultReportsFollowTheTable : Prop :=
  ∀ (s t : State) (a : Int) (op : BitVec 4) (at' : Word), s.run = .running → step s = .next t →
    t.run = .halted (.fault (.addressOutOfRange a op at')) →
    at' = s.pc ∧ op = (Memory.read s.mem s.pc).extractLsb' 12 4 ∧
    ((s.pc = 0xFFFF ∧ a = 65536) ∨
      (s.pc ≠ 0xFFFF ∧ (op = 0 ∨ op = 2 ∨ op = 3 ∨ op = 10 ∨ op = 11 ∨ op = 14) ∧
        (-255 ≤ a ∧ a ≤ -1 ∨ 65536 ≤ a ∧ a ≤ 65790)) ∨
      (s.pc ≠ 0xFFFF ∧ op = 4 ∧ (-1023 ≤ a ∧ a ≤ -1 ∨ 65536 ≤ a ∧ a ≤ 66558)) ∨
      (s.pc ≠ 0xFFFF ∧ (op = 6 ∨ op = 7) ∧ (-32 ≤ a ∧ a ≤ -1 ∨ 65536 ≤ a ∧ a ≤ 65566)))

/-- R110, R205: a cycle that faults commits nothing of its instruction: registers, CC and memory are as before it, and
the PC is the next address, or still 0xFFFF when the advance faulted. Rests on D7, D12. -/
def Obligations.FaultingCycleCommitsNothing : Prop :=
  ∀ (s t : State) (f : FaultValue), s.run = .running → step s = .next t → t.run = .halted (.fault f) →
    t = { s with cycles := s.cycles + 1, run := t.run, pc := if s.pc = 0xFFFF then 0xFFFF else s.pc + 1 }

/-- R68: a BR with n = z = p = 0, the all-zero word among them, only advances the PC. Rests on D1, D2. -/
def Obligations.BranchWithoutConditionsIsANoOp : Prop :=
  ∀ s : State, s.Ready → s.pc ≠ 0xFFFF → (Memory.read s.mem s.pc).extractLsb' 9 7 = 0#7 →
    step s = .next { s with cycles := s.cycles + 1, pc := s.pc + 1 }

/-- R55, R237: a word stored over the next instruction is what the next cycle runs. -/
def Obligations.StoreIsSeenByTheVeryNextFetch : Prop :=
  ∀ (s t : State) (v : Word), s.Ready → Memory.wf s.mem = true → s.pc ≠ 0xFFFF →
    storeOf s.advanced (decode (Memory.read s.mem s.pc)) = some (s.pc + 1, v) → step s = .next t →
    t.pc = s.pc + 1 ∧ Memory.read t.mem t.pc = v ∧
    (t.Ready → t.pc ≠ 0xFFFF → step t = exec (decode v) t.advanced)

/-! ### Invariants, runs, boot -/

/-- Every step keeps the invariant: memory stays in canonical form (log 1), whatever a hook leaves (log 5), and the
cycles begun stay within the cycle limit (R35). -/
def Obligations.StepKeepsTheInvariant : Prop :=
  ∀ s t : State, s.Inv → step s = .next t → t.Inv

/-- The invariant holds at reset. The canonical form is log 1, the image reset stands for log 8. -/
def Obligations.ResetHasTheInvariant : Prop :=
  State.reset.Inv

/-- Every state reached from any boot, with any hook and limit, by steps and stop requests in any order, has the
invariant. A corollary of the step's
lemma, over runs with the host's moves of log 6. -/
def Obligations.ReachableStatesHaveTheInvariant : Prop :=
  ∀ s : State, Reachable s → s.Inv

/-- R35, R240: a cycle limit ends every run: from a state within its limit, after at most one step more than the cycles
left, the machine is Halted, and never more cycles than the limit have begun. Rests on D17. The runs are of steps alone: a stop
request is the host's move (log 6), and could only end one sooner. -/
def Obligations.CycleLimitBoundsEveryRun : Prop :=
  ∀ (s : State) (limit : Nat), s.run = .running → s.cycleLimit = some limit → s.cycles ≤ limit →
    ∃ (k : Nat) (t : State) (r : HaltReason), k ≤ limit - s.cycles + 1 ∧ core.run k s = .next t ∧
      t.run = .halted r ∧ t.cycles ≤ limit

/-- R234: the state after reset, and what any boot leaves in registers and CC. The values of R0-R7 and of the CC are the
spec's decisions D14, D15; the image reset stands for is log 8. -/
def Obligations.ResetAndBootState : Prop :=
  (State.reset.mem = [] ∧ (∀ r : Reg, State.reset.regs.get r = 0) ∧ State.reset.pc = 0x3000 ∧ State.reset.cc = .z ∧
    State.reset.run = .running ∧ State.reset.haltReport = none ∧ State.reset.cycles = 0 ∧
    State.reset.stopRequested = false ∧ State.reset.cycleLimit = none ∧ State.reset.trapHook = none) ∧
  boot (some [0, 0]) none none = .ok State.reset ∧
  ∀ (stream : Option (List Byte)) (hook limit : Option Nat) (s : State), boot stream hook limit = .ok s →
    (∀ r : Reg, s.regs.get r = 0) ∧ s.cc = .z

/-- R230, R231: an image is big-endian words, origin first, 0 meaning 0x3000; if it fits, body word k stands at
origin + k, no other word is written, and the machine is Running at the origin with no cycle begun. An empty body loads
nothing. The words not loaded, the PC, the run state, the counter and the stop request are R234, the
limit and the hook R235; that an empty body is valid is the spec's decision D24 (log 9). -/
def Obligations.BootLoadsTheImageAtItsOrigin : Prop :=
  ∀ (originWord origin : Word) (body : List Word) (hook limit : Option Nat),
    origin = (if originWord = 0 then 0x3000 else originWord) → origin.toNat + body.length ≤ 65536 →
    ∃ s : State,
      boot (some ((originWord :: body).flatMap fun w => [w.extractLsb' 8 8, w.extractLsb' 0 8])) hook limit = .ok s ∧
      (∀ (k : Nat) (h : k < body.length) (a : Word), a.toNat = origin.toNat + k → Memory.read s.mem a = body[k]) ∧
      (∀ a : Word, (a.toNat < origin.toNat ∨ origin.toNat + body.length ≤ a.toNat) → Memory.read s.mem a = 0) ∧
      s.pc = origin ∧ s.run = .running ∧ s.cycles = 0 ∧ s.stopRequested = false ∧
      s.cycleLimit = limit ∧ s.trapHook = hook

/-- R232: the loader fails exactly when the stream cannot be read, has fewer than 2 bytes, leaves an odd byte, or holds
an image that does not fit below 65536; and it reports an error that holds (which, when two do,
is the free value of log 10). The errors' names are R203; that `none` is the
unreadable stream is the model's log 11; that an empty body is accepted is the spec's decision D24 (log 9). -/
def Obligations.BootFailsExactlyOnABadImage : Prop :=
  ∀ (hook limit : Option Nat),
    boot none hook limit = .error .streamUnreadable ∧
    (∀ bytes : List Byte, bytes.length < 2 → boot (some bytes) hook limit = .error .truncatedOrigin) ∧
    ∀ (high low : Byte) (rest : List Byte) (originWord origin : Word), originWord = high ++ low →
      origin = (if originWord = 0 then 0x3000 else originWord) →
      ((∃ s : State, boot (some (high :: low :: rest)) hook limit = .ok s) ↔
        rest.length % 2 = 0 ∧ origin.toNat + rest.length / 2 ≤ 65536) ∧
      (∀ e : LoadError, boot (some (high :: low :: rest)) hook limit = .error e →
        e = .truncatedBodyWord ∧ rest.length % 2 = 1 ∨
        e = .imageTooLarge ∧ origin.toNat + rest.length / 2 > 65536)
end

