-- ==== Sys2Proof/Laws/Decode.lean ====
section
/-! SUPPORT. Registers as fields, the fields of a word as bits, and which case of the decoder a word falls in. -/

namespace Sys2Proof

theorem Reg.ofBits_toBits (r : Reg) : Reg.ofBits r.toBits = r := by
  cases r <;> rfl

theorem Reg.toBits_ofBits (b : BitVec 3) : (Reg.ofBits b).toBits = b := by
  revert b; decide

theorem regField_eq (w : Word) (lo : Nat) : regField w lo = Reg.ofBits (w.extractLsb' lo 3) := rfl

/-- The bits of a field that is known. -/
theorem bit_of_field {w : Word} {lo len : Nat} {c : BitVec len} (h : w.extractLsb' lo len = c) (k : Nat)
    (hk : k < len) : w.getLsbD (lo + k) = c.getLsbD k := by
  rw [← h, BitVec.getLsbD_extractLsb']; simp [hk]

/-- The four opcode bits of a word whose opcode is known. -/
theorem opcode_bits {w : Word} {c : BitVec 4} (h : w.extractLsb' 12 4 = c) :
    w.getLsbD 15 = c.getLsbD 3 ∧ w.getLsbD 14 = c.getLsbD 2 ∧ w.getLsbD 13 = c.getLsbD 1 ∧
      w.getLsbD 12 = c.getLsbD 0 :=
  ⟨bit_of_field h 3 (by omega), bit_of_field h 2 (by omega), bit_of_field h 1 (by omega), bit_of_field h 0 (by omega)⟩

/-- A field of a word is its bits. -/
theorem field_eq_iff {w : Word} {lo len : Nat} {c : BitVec len} :
    w.extractLsb' lo len = c ↔ ∀ k, k < len → w.getLsbD (lo + k) = c.getLsbD k := by
  constructor
  · exact fun h k hk => bit_of_field h k hk
  · intro h
    apply BitVec.eq_of_getLsbD_eq
    intro k hk
    rw [BitVec.getLsbD_extractLsb']; simp [hk, h k hk]

/-! ### Fields of an encoded word -/

/-- The opcode of what a word decodes to is the word's opcode field, so the opcode a fault reports is the one fetched
(R104, R200). -/
theorem decode_opcode (w : Word) : (decode w).opcode = w.extractLsb' 12 4 := by
  have of_bits : ∀ {a b c d : Bool} {n : BitVec 4}, bitAt w 15 = a → bitAt w 14 = b → bitAt w 13 = c → bitAt w 12 = d →
      (n.getLsbD 3 = a ∧ n.getLsbD 2 = b ∧ n.getLsbD 1 = c ∧ n.getLsbD 0 = d) → n = w.extractLsb' 12 4 := by
    intro a b c d n ha hb hc hd ⟨h3, h2, h1, h0⟩
    symm
    rw [field_eq_iff]
    intro k hk
    match k, hk with
    | 0, _ => exact Eq.trans hd h0.symm
    | 1, _ => exact Eq.trans hc h1.symm
    | 2, _ => exact Eq.trans hb h2.symm
    | 3, _ => exact Eq.trans ha h3.symm
  unfold decode
  split <;> rename_i ha hb hc hd <;> refine of_bits ha hb hc hd ?_
  case h_2 | h_6 => cases bitAt w 5 <;> simp only [cond, Instr.opcode] <;> decide
  case h_5 => cases bitAt w 11 <;> simp only [cond, Instr.opcode] <;> decide
  case h_14 => unfold decodeShf; split <;> simp only [Instr.opcode] <;> decide
  all_goals simp only [Instr.opcode]; decide

/-- A row covers the words that have its value's bits under its mask. -/
theorem covers_iff (row : TableRow) (w : Word) :
    row.covers w = true ↔ ∀ k, k < 16 → (w.getLsbD k && row.mask.getLsbD k) = row.value.getLsbD k := by
  rw [TableRow.covers, beq_iff_eq]
  constructor
  · intro h k _
    rw [← h, BitVec.getLsbD_and]
  · intro h
    apply BitVec.eq_of_getLsbD_eq
    intro k hk
    rw [BitVec.getLsbD_and, h k hk]

/-- A bit of a word that one field alone fills. -/
theorem getLsbD_placeField {n : Nat} (f : BitVec n) (lo k : Nat) :
    (placeField f lo).getLsbD k = (decide (k < 16) && !decide (k < lo) && f.getLsbD (k - lo)) := by
  simp only [placeField, BitVec.getLsbD_shiftLeft, BitVec.getLsbD_setWidth]
  by_cases h1 : k < 16
  · simp [h1, show k - lo < 16 by omega]
  · simp [h1]

/-- The place of a field holds it. -/
theorem field_placeField {n : Nat} (f : BitVec n) (lo : Nat) (h : lo + n ≤ 16) :
    (placeField f lo).extractLsb' lo n = f := by
  rw [field_eq_iff]
  intro k hk
  rw [getLsbD_placeField]
  simp [show lo + k < 16 by omega]

/-- A field says nothing of a place below it. -/
theorem field_placeField_below {n : Nat} (f : BitVec n) (lo at' len : Nat) (h : at' + len ≤ lo) :
    (placeField f lo).extractLsb' at' len = 0#len := by
  rw [field_eq_iff]
  intro k hk
  rw [getLsbD_placeField]
  simp [show at' + k < lo by omega]

/-- A field says nothing of a place above it. -/
theorem field_placeField_above {n : Nat} (f : BitVec n) (lo at' len : Nat) (h : lo + n ≤ at') :
    (placeField f lo).extractLsb' at' len = 0#len := by
  rw [field_eq_iff]
  intro k hk
  rw [getLsbD_placeField, BitVec.getLsbD_of_ge f _ (by omega)]
  simp

/-- A field of joined words is the join of their fields. -/
theorem field_or (x y : Word) (at' len : Nat) :
    (x ||| y).extractLsb' at' len = x.extractLsb' at' len ||| y.extractLsb' at' len := by
  rw [field_eq_iff]
  intro k hk
  simp [hk]

/-- An instruction's word has its opcode value in the top four bits, whatever the operands. -/
theorem encode_opcode (i : Instr) : (encode i).extractLsb' 12 4 = i.opcode := by
  cases i <;> simp [encode, field_or, field_placeField, field_placeField_above, Instr.opcode]

end Sys2Proof
end

