-- ==== Sys2Proof/Laws/State.lean ====
section
/-! SUPPORT. What each state update does to each field: one lemma per field per update, by rfl, so that no later proof
unfolds an update. -/

namespace Sys2Proof.Machine

/-! `State.setReg` -/

@[simp] theorem State.setReg_mem (s : State) (r : Reg) (v : Word) : (s.setReg r v).mem = s.mem := rfl
@[simp] theorem State.setReg_regs (s : State) (r : Reg) (v : Word) : (s.setReg r v).regs = s.regs.set r v := rfl
@[simp] theorem State.setReg_pc (s : State) (r : Reg) (v : Word) : (s.setReg r v).pc = s.pc := rfl
@[simp] theorem State.setReg_cc (s : State) (r : Reg) (v : Word) : (s.setReg r v).cc = s.cc := rfl
@[simp] theorem State.setReg_run (s : State) (r : Reg) (v : Word) : (s.setReg r v).run = s.run := rfl
@[simp] theorem State.setReg_cycles (s : State) (r : Reg) (v : Word) : (s.setReg r v).cycles = s.cycles := rfl
@[simp] theorem State.setReg_stopRequested (s : State) (r : Reg) (v : Word) : (s.setReg r v).stopRequested = s.stopRequested := rfl
@[simp] theorem State.setReg_cycleLimit (s : State) (r : Reg) (v : Word) : (s.setReg r v).cycleLimit = s.cycleLimit := rfl
@[simp] theorem State.setReg_trapHook (s : State) (r : Reg) (v : Word) : (s.setReg r v).trapHook = s.trapHook := rfl

/-! `State.writeReg` -/

@[simp] theorem State.writeReg_mem (s : State) (r : Reg) (v : Word) : (s.writeReg r v).mem = s.mem := rfl
@[simp] theorem State.writeReg_regs (s : State) (r : Reg) (v : Word) : (s.writeReg r v).regs = s.regs.set r v := rfl
@[simp] theorem State.writeReg_pc (s : State) (r : Reg) (v : Word) : (s.writeReg r v).pc = s.pc := rfl
@[simp] theorem State.writeReg_cc (s : State) (r : Reg) (v : Word) : (s.writeReg r v).cc = classify v := rfl
@[simp] theorem State.writeReg_run (s : State) (r : Reg) (v : Word) : (s.writeReg r v).run = s.run := rfl
@[simp] theorem State.writeReg_cycles (s : State) (r : Reg) (v : Word) : (s.writeReg r v).cycles = s.cycles := rfl
@[simp] theorem State.writeReg_stopRequested (s : State) (r : Reg) (v : Word) : (s.writeReg r v).stopRequested = s.stopRequested := rfl
@[simp] theorem State.writeReg_cycleLimit (s : State) (r : Reg) (v : Word) : (s.writeReg r v).cycleLimit = s.cycleLimit := rfl
@[simp] theorem State.writeReg_trapHook (s : State) (r : Reg) (v : Word) : (s.writeReg r v).trapHook = s.trapHook := rfl

/-! `State.store` -/

@[simp] theorem State.store_mem (s : State) (a v : Word) : (s.store a v).mem = Memory.write s.mem a v := rfl
@[simp] theorem State.store_regs (s : State) (a v : Word) : (s.store a v).regs = s.regs := rfl
@[simp] theorem State.store_pc (s : State) (a v : Word) : (s.store a v).pc = s.pc := rfl
@[simp] theorem State.store_cc (s : State) (a v : Word) : (s.store a v).cc = s.cc := rfl
@[simp] theorem State.store_run (s : State) (a v : Word) : (s.store a v).run = s.run := rfl
@[simp] theorem State.store_cycles (s : State) (a v : Word) : (s.store a v).cycles = s.cycles := rfl
@[simp] theorem State.store_stopRequested (s : State) (a v : Word) : (s.store a v).stopRequested = s.stopRequested := rfl
@[simp] theorem State.store_cycleLimit (s : State) (a v : Word) : (s.store a v).cycleLimit = s.cycleLimit := rfl
@[simp] theorem State.store_trapHook (s : State) (a v : Word) : (s.store a v).trapHook = s.trapHook := rfl

/-! `State.setPc` -/

@[simp] theorem State.setPc_mem (s : State) (a : Word) : (s.setPc a).mem = s.mem := rfl
@[simp] theorem State.setPc_regs (s : State) (a : Word) : (s.setPc a).regs = s.regs := rfl
@[simp] theorem State.setPc_pc (s : State) (a : Word) : (s.setPc a).pc = a := rfl
@[simp] theorem State.setPc_cc (s : State) (a : Word) : (s.setPc a).cc = s.cc := rfl
@[simp] theorem State.setPc_run (s : State) (a : Word) : (s.setPc a).run = s.run := rfl
@[simp] theorem State.setPc_cycles (s : State) (a : Word) : (s.setPc a).cycles = s.cycles := rfl
@[simp] theorem State.setPc_stopRequested (s : State) (a : Word) : (s.setPc a).stopRequested = s.stopRequested := rfl
@[simp] theorem State.setPc_cycleLimit (s : State) (a : Word) : (s.setPc a).cycleLimit = s.cycleLimit := rfl
@[simp] theorem State.setPc_trapHook (s : State) (a : Word) : (s.setPc a).trapHook = s.trapHook := rfl

/-! `State.halt` -/

@[simp] theorem State.halt_mem (s : State) (r : HaltReason) : (s.halt r).mem = s.mem := rfl
@[simp] theorem State.halt_regs (s : State) (r : HaltReason) : (s.halt r).regs = s.regs := rfl
@[simp] theorem State.halt_pc (s : State) (r : HaltReason) : (s.halt r).pc = s.pc := rfl
@[simp] theorem State.halt_cc (s : State) (r : HaltReason) : (s.halt r).cc = s.cc := rfl
@[simp] theorem State.halt_run (s : State) (r : HaltReason) : (s.halt r).run = .halted r := rfl
@[simp] theorem State.halt_cycles (s : State) (r : HaltReason) : (s.halt r).cycles = s.cycles := rfl
@[simp] theorem State.halt_stopRequested (s : State) (r : HaltReason) : (s.halt r).stopRequested = s.stopRequested := rfl
@[simp] theorem State.halt_cycleLimit (s : State) (r : HaltReason) : (s.halt r).cycleLimit = s.cycleLimit := rfl
@[simp] theorem State.halt_trapHook (s : State) (r : HaltReason) : (s.halt r).trapHook = s.trapHook := rfl

/-! `State.takeFault` -/

@[simp] theorem State.takeFault_mem (s : State) (r : Raise) (op : BitVec 4) (at' : Word) : (s.takeFault r op at').mem = s.mem := rfl
@[simp] theorem State.takeFault_regs (s : State) (r : Raise) (op : BitVec 4) (at' : Word) : (s.takeFault r op at').regs = s.regs := rfl
@[simp] theorem State.takeFault_pc (s : State) (r : Raise) (op : BitVec 4) (at' : Word) : (s.takeFault r op at').pc = s.pc := rfl
@[simp] theorem State.takeFault_cc (s : State) (r : Raise) (op : BitVec 4) (at' : Word) : (s.takeFault r op at').cc = s.cc := rfl
@[simp] theorem State.takeFault_run (s : State) (r : Raise) (op : BitVec 4) (at' : Word) : (s.takeFault r op at').run = .halted (.fault (r.value op at')) := rfl
@[simp] theorem State.takeFault_cycles (s : State) (r : Raise) (op : BitVec 4) (at' : Word) : (s.takeFault r op at').cycles = s.cycles := rfl
@[simp] theorem State.takeFault_stopRequested (s : State) (r : Raise) (op : BitVec 4) (at' : Word) : (s.takeFault r op at').stopRequested = s.stopRequested := rfl
@[simp] theorem State.takeFault_cycleLimit (s : State) (r : Raise) (op : BitVec 4) (at' : Word) : (s.takeFault r op at').cycleLimit = s.cycleLimit := rfl
@[simp] theorem State.takeFault_trapHook (s : State) (r : Raise) (op : BitVec 4) (at' : Word) : (s.takeFault r op at').trapHook = s.trapHook := rfl

/-! `State.raise` -/

@[simp] theorem State.raise_mem (s : State) (i : Instr) (r : Raise) : (s.raise i r).mem = s.mem := rfl
@[simp] theorem State.raise_regs (s : State) (i : Instr) (r : Raise) : (s.raise i r).regs = s.regs := rfl
@[simp] theorem State.raise_pc (s : State) (i : Instr) (r : Raise) : (s.raise i r).pc = s.pc := rfl
@[simp] theorem State.raise_cc (s : State) (i : Instr) (r : Raise) : (s.raise i r).cc = s.cc := rfl
@[simp] theorem State.raise_run (s : State) (i : Instr) (r : Raise) : (s.raise i r).run = .halted (.fault (r.value i.opcode (s.pc - 1))) := rfl
@[simp] theorem State.raise_cycles (s : State) (i : Instr) (r : Raise) : (s.raise i r).cycles = s.cycles := rfl
@[simp] theorem State.raise_stopRequested (s : State) (i : Instr) (r : Raise) : (s.raise i r).stopRequested = s.stopRequested := rfl
@[simp] theorem State.raise_cycleLimit (s : State) (i : Instr) (r : Raise) : (s.raise i r).cycleLimit = s.cycleLimit := rfl
@[simp] theorem State.raise_trapHook (s : State) (i : Instr) (r : Raise) : (s.raise i r).trapHook = s.trapHook := rfl

/-! `State.countCycle` -/

@[simp] theorem State.countCycle_mem (s : State) : s.countCycle.mem = s.mem := rfl
@[simp] theorem State.countCycle_regs (s : State) : s.countCycle.regs = s.regs := rfl
@[simp] theorem State.countCycle_pc (s : State) : s.countCycle.pc = s.pc := rfl
@[simp] theorem State.countCycle_cc (s : State) : s.countCycle.cc = s.cc := rfl
@[simp] theorem State.countCycle_run (s : State) : s.countCycle.run = s.run := rfl
@[simp] theorem State.countCycle_cycles (s : State) : s.countCycle.cycles = s.cycles + 1 := rfl
@[simp] theorem State.countCycle_stopRequested (s : State) : s.countCycle.stopRequested = s.stopRequested := rfl
@[simp] theorem State.countCycle_cycleLimit (s : State) : s.countCycle.cycleLimit = s.cycleLimit := rfl
@[simp] theorem State.countCycle_trapHook (s : State) : s.countCycle.trapHook = s.trapHook := rfl

/-! `State.requestStop` -/

@[simp] theorem State.requestStop_mem (s : State) : s.requestStop.mem = s.mem := rfl
@[simp] theorem State.requestStop_regs (s : State) : s.requestStop.regs = s.regs := rfl
@[simp] theorem State.requestStop_pc (s : State) : s.requestStop.pc = s.pc := rfl
@[simp] theorem State.requestStop_cc (s : State) : s.requestStop.cc = s.cc := rfl
@[simp] theorem State.requestStop_run (s : State) : s.requestStop.run = s.run := rfl
@[simp] theorem State.requestStop_cycles (s : State) : s.requestStop.cycles = s.cycles := rfl
@[simp] theorem State.requestStop_stopRequested (s : State) : s.requestStop.stopRequested = true := rfl
@[simp] theorem State.requestStop_cycleLimit (s : State) : s.requestStop.cycleLimit = s.cycleLimit := rfl
@[simp] theorem State.requestStop_trapHook (s : State) : s.requestStop.trapHook = s.trapHook := rfl

/-! `State.install` -/

@[simp] theorem State.install_mem (s : State) (a : ArchState) : (s.install a).mem = Memory.canon a.mem := rfl
@[simp] theorem State.install_regs (s : State) (a : ArchState) : (s.install a).regs = a.regs := rfl
@[simp] theorem State.install_pc (s : State) (a : ArchState) : (s.install a).pc = a.pc := rfl
@[simp] theorem State.install_cc (s : State) (a : ArchState) : (s.install a).cc = a.cc := rfl
@[simp] theorem State.install_run (s : State) (a : ArchState) : (s.install a).run = s.run := rfl
@[simp] theorem State.install_cycles (s : State) (a : ArchState) : (s.install a).cycles = s.cycles := rfl
@[simp] theorem State.install_stopRequested (s : State) (a : ArchState) : (s.install a).stopRequested = s.stopRequested := rfl
@[simp] theorem State.install_cycleLimit (s : State) (a : ArchState) : (s.install a).cycleLimit = s.cycleLimit := rfl
@[simp] theorem State.install_trapHook (s : State) (a : ArchState) : (s.install a).trapHook = s.trapHook := rfl

/-! `State.advanced` -/

@[simp] theorem State.advanced_mem (s : State) : s.advanced.mem = s.mem := rfl
@[simp] theorem State.advanced_regs (s : State) : s.advanced.regs = s.regs := rfl
@[simp] theorem State.advanced_pc (s : State) : s.advanced.pc = s.pc + 1 := rfl
@[simp] theorem State.advanced_cc (s : State) : s.advanced.cc = s.cc := rfl
@[simp] theorem State.advanced_run (s : State) : s.advanced.run = s.run := rfl
@[simp] theorem State.advanced_cycles (s : State) : s.advanced.cycles = s.cycles + 1 := rfl
@[simp] theorem State.advanced_stopRequested (s : State) : s.advanced.stopRequested = s.stopRequested := rfl
@[simp] theorem State.advanced_cycleLimit (s : State) : s.advanced.cycleLimit = s.cycleLimit := rfl
@[simp] theorem State.advanced_trapHook (s : State) : s.advanced.trapHook = s.trapHook := rfl

/-! Updates with an equal value, and the reads. -/

@[simp] theorem State.reg_eq (s : State) (r : Reg) : s.reg r = s.regs.get r := rfl
@[simp] theorem State.load_eq (s : State) (a : Word) : s.load a = Memory.read s.mem a := rfl
@[simp] theorem State.fetch_eq (s : State) : s.fetch = Memory.read s.mem s.pc := rfl
@[simp] theorem State.ipc_eq (s : State) : s.ipc = s.pc - 1 := rfl

theorem State.raise_eq (s : State) (i : Instr) (r : Raise) :
    s.raise i r = { s with run := .halted (.fault (r.value i.opcode (s.pc - 1))) } := rfl

end Sys2Proof.Machine
end

