-- ==== Sys2Proof/Laws/Memory.lean ====
section
/-! SUPPORT. Memory and register file: a read after a write, the canonical form, and that every operation keeps it. -/

namespace Sys2Proof.Machine

/-! ### Registers -/

theorem Regs.get_set (regs : Regs) (r q : Reg) (v : Word) :
    (regs.set r v).get q = if q = r then v else regs.get q := by
  cases r <;> cases q <;> rfl

@[simp] theorem Regs.get_set_self (regs : Regs) (r : Reg) (v : Word) : (regs.set r v).get r = v := by
  simp [Regs.get_set]

theorem Regs.get_set_of_ne (regs : Regs) {r q : Reg} (h : q ≠ r) (v : Word) :
    (regs.set r v).get q = regs.get q := by
  simp [Regs.get_set, h]

/-! ### The canonical form -/

theorem Memory.wfFrom_cons {lo k : Nat} {w : Word} {rest : Memory} :
    Memory.wfFrom lo ((k, w) :: rest) = true ↔
      lo ≤ k ∧ k < Config.memoryWords ∧ w ≠ Config.unlistedWord ∧ Memory.wfFrom (k + 1) rest = true := by
  simp [Memory.wfFrom, and_assoc]

theorem Memory.wfFrom_mono {m : Memory} {lo lo' : Nat} (h : lo' ≤ lo) (hm : Memory.wfFrom lo m = true) :
    Memory.wfFrom lo' m = true := by
  cases m with
  | nil => rfl
  | cons c rest =>
    obtain ⟨k, w⟩ := c
    rw [Memory.wfFrom_cons] at hm ⊢
    exact ⟨h.trans hm.1, hm.2⟩

/-- An address below everything listed is unlisted. -/
theorem Memory.lookup_of_lt {m : Memory} {lo a : Nat} (hm : Memory.wfFrom lo m = true) (h : a < lo) :
    Memory.lookup m a = Config.unlistedWord := by
  induction m generalizing lo with
  | nil => rfl
  | cons c rest ih =>
    obtain ⟨k, w⟩ := c
    rw [Memory.wfFrom_cons] at hm
    simp only [Memory.lookup]
    rw [if_neg (by omega)]
    exact ih hm.2.2.2 (by omega)

/-! ### A read after a write -/

theorem Memory.lookup_put {m : Memory} {lo : Nat} (hm : Memory.wfFrom lo m = true) (a b : Nat) (v : Word) :
    Memory.lookup (Memory.put m a v) b = if b = a then v else Memory.lookup m b := by
  induction m generalizing lo with
  | nil =>
    by_cases hv : v = Config.unlistedWord <;> by_cases hb : b = a <;> simp_all [Memory.put, Memory.lookup]
    exact fun h => absurd h.symm hb
  | cons c rest ih =>
    obtain ⟨k, w⟩ := c
    rw [Memory.wfFrom_cons] at hm
    have below := Memory.lookup_of_lt (a := k) hm.2.2.2 (Nat.lt_succ_self k)
    simp only [Memory.put]
    by_cases hlt : a < k
    · have unlisted := Memory.lookup_of_lt (a := a) hm.2.2.2 (by omega)
      by_cases hv : v = Config.unlistedWord
      · by_cases hb : b = a
        · subst hb
          simp [hlt, hv, Memory.lookup, unlisted, show ¬ k = b by omega]
        · simp [hlt, hv, hb]
      · by_cases hb : b = a
        · simp [hlt, hv, hb, Memory.lookup]
        · simp [hlt, hv, hb, Memory.lookup, show ¬ a = b from fun h => hb h.symm]
    · by_cases heq : a = k
      · subst heq
        by_cases hv : v = Config.unlistedWord
        · by_cases hb : b = a
          · subst hb; simp [hv, below]
          · simp [hv, hb, Memory.lookup, show ¬ a = b from fun h => hb h.symm]
        · by_cases hb : b = a
          · simp [hv, hb, Memory.lookup]
          · simp [hv, hb, Memory.lookup, show ¬ a = b from fun h => hb h.symm]
      · simp only [hlt, heq, if_false, Memory.lookup, ih hm.2.2.2]
        by_cases hk : k = b
        · simp [hk, show ¬ b = a by omega]
        · simp [hk]

theorem Memory.put_wfFrom {m : Memory} {lo a : Nat} (hm : Memory.wfFrom lo m = true) (hlo : lo ≤ a)
    (ha : a < Config.memoryWords) (v : Word) : Memory.wfFrom lo (Memory.put m a v) = true := by
  induction m generalizing lo with
  | nil => by_cases hv : v = Config.unlistedWord <;> simp [Memory.put, Memory.wfFrom, hv, hlo, ha]
  | cons c rest ih =>
    obtain ⟨k, w⟩ := c
    have hm' := hm
    rw [Memory.wfFrom_cons] at hm
    obtain ⟨h1, h2, h3, h4⟩ := hm
    simp only [Memory.put]
    by_cases hlt : a < k
    · by_cases hv : v = Config.unlistedWord
      · simpa [hlt, hv] using hm'
      · simp only [hlt, hv, if_true, if_false, Memory.wfFrom_cons]
        exact ⟨hlo, ha, hv, by omega, h2, h3, h4⟩
    · by_cases heq : a = k
      · subst heq
        by_cases hv : v = Config.unlistedWord
        · simpa [hv] using Memory.wfFrom_mono (by omega : lo ≤ a + 1) h4
        · simp only [hlt, hv, if_true, if_false, Memory.wfFrom_cons]
          exact ⟨hlo, ha, hv, h4⟩
      · simp only [hlt, heq, if_false, Memory.wfFrom_cons]
        exact ⟨h1, h2, h3, ih h4 (by omega)⟩

/-- Every operation on memory keeps the canonical form: a write. -/
theorem Memory.write_wf {m : Memory} (hm : Memory.wf m = true) (a v : Word) :
    Memory.wf (Memory.write m a v) = true :=
  Memory.put_wfFrom hm (Nat.zero_le _) a.isLt v

/-- A read after a write: the value written at that address, the old word at every other. -/
theorem Memory.read_write {m : Memory} (hm : Memory.wf m = true) (a b v : Word) :
    Memory.read (Memory.write m a v) b = if b = a then v else Memory.read m b := by
  simp only [Memory.read, Memory.write, Memory.lookup_put hm, BitVec.toNat_inj]

/-! ### `Memory.canon` -/

/-- Every operation on memory keeps the canonical form: `canon` makes it. -/
theorem Memory.canon_wf (m : Memory) : Memory.wf (Memory.canon m) = true := by
  induction m with
  | nil => rfl
  | cons c rest ih =>
    obtain ⟨k, w⟩ := c
    by_cases hk : k < Config.memoryWords
    · rw [Memory.canon, if_pos hk]
      exact Memory.put_wfFrom ih (Nat.zero_le k) hk w
    · rwa [Memory.canon, if_neg hk]

theorem Memory.lookup_canon (m : Memory) (a : Word) :
    Memory.lookup (Memory.canon m) a.toNat = Memory.lookup m a.toNat := by
  induction m with
  | nil => rfl
  | cons c rest ih =>
    obtain ⟨k, w⟩ := c
    have ha := a.isLt
    by_cases hk : k < Config.memoryWords
    · simp only [Memory.canon, hk, if_true, Memory.lookup_put (Memory.canon_wf rest), ih, Memory.lookup, eq_comm]
    · have : ¬ k = a.toNat := by simp only [Config.memoryWords] at hk; omega
      simp only [Memory.canon, hk, if_false, ih, Memory.lookup, this]

@[simp] theorem Memory.read_canon (m : Memory) (a : Word) :
    Memory.read (Memory.canon m) a = Memory.read m a := Memory.lookup_canon m a

/-- A cell below the others is put in front of them. -/
theorem Memory.put_front {m : Memory} {k : Nat} {w : Word} (hm : Memory.wfFrom (k + 1) m = true)
    (hw : w ≠ Config.unlistedWord) : Memory.put m k w = (k, w) :: m := by
  cases m with
  | nil => simp [Memory.put, hw]
  | cons c rest =>
    obtain ⟨k', w'⟩ := c
    rw [Memory.wfFrom_cons] at hm
    simp [Memory.put, hw, show k < k' by omega]

theorem Memory.canon_of_wfFrom {m : Memory} {lo : Nat} (hm : Memory.wfFrom lo m = true) :
    Memory.canon m = m := by
  induction m generalizing lo with
  | nil => rfl
  | cons c rest ih =>
    obtain ⟨k, w⟩ := c
    rw [Memory.wfFrom_cons] at hm
    simp only [Memory.canon, hm.2.1, if_true, ih hm.2.2.2]
    exact Memory.put_front hm.2.2.2 hm.2.2.1

/-- A memory in canonical form is its own canonical form. -/
theorem Memory.canon_of_wf {m : Memory} (hm : Memory.wf m = true) : Memory.canon m = m :=
  Memory.canon_of_wfFrom hm

/-! ### `Memory.putAll` (the loader) -/

/-- Every operation on memory keeps the canonical form: the load of words that fit. -/
theorem Memory.putAll_wf {m : Memory} (hm : Memory.wf m = true) (a : Nat) (ws : List Word)
    (h : a + ws.length ≤ Config.memoryWords) : Memory.wf (Memory.putAll m a ws) = true := by
  induction ws generalizing m a with
  | nil => exact hm
  | cons w rest ih =>
    simp only [List.length_cons] at h
    exact ih (Memory.put_wfFrom hm (Nat.zero_le a) (by omega) w) (a + 1) (by omega)

/-- What each address reads as after a load of words that fit. -/
theorem Memory.lookup_putAll {m : Memory} (hm : Memory.wf m = true) (a : Nat) (ws : List Word)
    (h : a + ws.length ≤ Config.memoryWords) (b : Nat) :
    Memory.lookup (Memory.putAll m a ws) b =
      if a ≤ b then (ws[b - a]?).getD (Memory.lookup m b) else Memory.lookup m b := by
  induction ws generalizing m a with
  | nil => simp [Memory.putAll]
  | cons w rest ih =>
    simp only [List.length_cons] at h
    rw [Memory.putAll, ih (Memory.put_wfFrom hm (Nat.zero_le a) (by omega) w) (a + 1) (by omega),
      Memory.lookup_put hm]
    rcases Nat.lt_trichotomy b a with hb | hb | hb
    · simp [show ¬ a + 1 ≤ b by omega, show ¬ a ≤ b by omega, show ¬ b = a by omega]
    · subst hb; simp
    · have : b - a = (b - (a + 1)) + 1 := by omega
      simp [show a + 1 ≤ b by omega, show a ≤ b by omega, show ¬ b = a by omega, this]

end Sys2Proof.Machine
end

