-- ==== Sys2Proof/Laws/Ops.lean ====
section
/-! SUPPORT. One lemma for each shared operation, saying once what it can do: sign extension, the range check, the
checked address of an instruction, the advance, the host checks, a hook's call, a step. -/

namespace Sys2Proof.Machine

/-! ### Operands -/

theorem sext_toInt {n : Nat} (h : n ≤ 16) (f : BitVec n) : (sext f).toInt = f.toInt :=
  BitVec.toInt_signExtend_of_le h

/-- The effective address is the base's unsigned value plus the offset's signed value. -/
theorem effectiveAddress_eq {n : Nat} (h : n ≤ 16) (base : Word) (off : BitVec n) :
    effectiveAddress base off = (base.toNat : Int) + off.toInt := by
  simp only [effectiveAddress, sval, uval, sext_toInt h]

theorem checkAddr_of_word {ea : Int} {a : Word} (h : (a.toNat : Int) = ea) : checkAddr ea = .ok a := by
  have ha := a.isLt
  subst h
  rw [checkAddr, if_neg (by omega)]
  simp

theorem checkAddr_out {ea : Int} (h : ea < 0 ∨ 65535 < ea) : checkAddr ea = .error (.addressOutOfRange ea) := by
  rw [checkAddr, if_pos (by omega)]

/-- The range check answers the address, or raises. -/
theorem checkAddr_cases (ea : Int) :
    (∃ a : Word, (a.toNat : Int) = ea ∧ checkAddr ea = .ok a) ∨
    ((ea < 0 ∨ 65535 < ea) ∧ checkAddr ea = .error (.addressOutOfRange ea)) := by
  by_cases h : ea < 0 ∨ 65535 < ea
  · exact .inr ⟨h, checkAddr_out h⟩
  · have hw : ((BitVec.ofNat 16 ea.toNat).toNat : Int) = ea := by
      rw [BitVec.toNat_ofNat]; omega
    exact .inl ⟨_, hw, checkAddr_of_word hw⟩

theorem withAddress_of_word (s : State) (i : Instr) {ea : Int} (k : Word → State) {a : Word}
    (h : (a.toNat : Int) = ea) : s.withAddress i ea k = k a := by
  simp only [State.withAddress, checkAddr_of_word h]

theorem withAddress_out (s : State) (i : Instr) {ea : Int} (k : Word → State) (h : ea < 0 ∨ 65535 < ea) :
    s.withAddress i ea k = s.raise i (.addressOutOfRange ea) := by
  simp only [State.withAddress, checkAddr_out h]

/-- An instruction with a computed address goes on with it, or raises AddressOutOfRange. -/
theorem withAddress_cases (s : State) (i : Instr) (ea : Int) (k : Word → State) :
    (∃ a : Word, (a.toNat : Int) = ea ∧ addressOf ea = some a ∧ s.withAddress i ea k = k a) ∨
    ((ea < 0 ∨ 65535 < ea) ∧ addressOf ea = none ∧
      s.withAddress i ea k = s.raise i (.addressOutOfRange ea)) := by
  rcases checkAddr_cases ea with ⟨a, ha, hc⟩ | ⟨ho, hc⟩
  · exact .inl ⟨a, ha, by rw [addressOf, hc], withAddress_of_word s i k ha⟩
  · exact .inr ⟨ho, by rw [addressOf, hc], withAddress_out s i k ho⟩

/-! ### A hook's call -/

@[simp] theorem callHook_regs (s : State) (hook : TrapHook) (v : BitVec 8) :
    (s.callHook hook v).regs = (hook v s.toArchState).2.regs := by
  unfold State.callHook; split <;> simp_all

@[simp] theorem callHook_pc (s : State) (hook : TrapHook) (v : BitVec 8) :
    (s.callHook hook v).pc = (hook v s.toArchState).2.pc := by
  unfold State.callHook; split <;> simp_all

@[simp] theorem callHook_cc (s : State) (hook : TrapHook) (v : BitVec 8) :
    (s.callHook hook v).cc = (hook v s.toArchState).2.cc := by
  unfold State.callHook; split <;> simp_all

@[simp] theorem callHook_mem (s : State) (hook : TrapHook) (v : BitVec 8) :
    (s.callHook hook v).mem = Memory.canon (hook v s.toArchState).2.mem := by
  unfold State.callHook; split <;> simp_all

@[simp] theorem callHook_run (s : State) (hook : TrapHook) (v : BitVec 8) :
    (s.callHook hook v).run = if (hook v s.toArchState).1 = .halt then .halted .trapHalt else s.run := by
  unfold State.callHook; split <;> simp_all

@[simp] theorem callHook_cycles (s : State) (hook : TrapHook) (v : BitVec 8) :
    (s.callHook hook v).cycles = s.cycles := by
  unfold State.callHook; split <;> simp_all

@[simp] theorem callHook_stopRequested (s : State) (hook : TrapHook) (v : BitVec 8) :
    (s.callHook hook v).stopRequested = s.stopRequested := by
  unfold State.callHook; split <;> simp_all

@[simp] theorem callHook_cycleLimit (s : State) (hook : TrapHook) (v : BitVec 8) :
    (s.callHook hook v).cycleLimit = s.cycleLimit := by
  unfold State.callHook; split <;> simp_all

@[simp] theorem callHook_trapHook (s : State) (hook : TrapHook) (v : BitVec 8) :
    (s.callHook hook v).trapHook = s.trapHook := by
  unfold State.callHook; split <;> simp_all

/-- The default hook halts and, on canonical memory, changes nothing else. -/
theorem callHook_default {s : State} (hm : Memory.wf s.mem = true) (v : BitVec 8) :
    s.callHook defaultTrapHook v = s.halt .trapHalt := by
  simp only [State.callHook, defaultTrapHook, State.install, Memory.canon_of_wf hm]

theorem hook_of_none {s : State} (h : s.trapHook = none) : s.hook = defaultTrapHook := by
  simp only [State.hook, h]

theorem hook_of_some {s : State} {number : Nat} (h : s.trapHook = some number) :
    s.hook = Config.hostHook number := by
  simp only [State.hook, h]

/-! ### The parts of a cycle -/

theorem advance_of_ne {s : State} (h : s.pc ≠ 0xFFFF) : s.advance = .ok (s.setPc (s.pc + 1)) := by
  have hlt : s.pc.toNat + 1 < 65536 := by
    have := s.pc.isLt
    have : s.pc.toNat ≠ 65535 := fun he => h (BitVec.eq_of_toNat_eq he)
    omega
  have hw : ((s.pc + 1).toNat : Int) = uval s.pc + 1 := by
    show _ = (s.pc.toNat : Int) + 1
    rw [BitVec.toNat_add, show (1 : Word).toNat = 1 from rfl]; omega
  simp only [State.advance, checkAddr_of_word hw]

theorem advance_at_top {s : State} (h : s.pc = 0xFFFF) : s.advance = .error (.addressOutOfRange 65536) := by
  simp only [State.advance, h]; rfl

/-- What the host checks answer (R101). -/
theorem hostHalt_cases (s : State) :
    (s.stopRequested = true ∧ s.hostHalt = some .stopRequest) ∨
    (s.stopRequested = false ∧ (∃ limit, s.cycleLimit = some limit ∧ limit ≤ s.cycles) ∧
      s.hostHalt = some .cycleLimit) ∨
    (s.stopRequested = false ∧ (∀ limit, s.cycleLimit = some limit → s.cycles < limit) ∧ s.hostHalt = none) := by
  unfold State.hostHalt
  cases hs : s.stopRequested <;> cases hl : s.cycleLimit with
  | none => simp
  | some limit =>
    by_cases hc : limit ≤ s.cycles
    · simp [hc]
    · simp [hc, Nat.lt_of_not_le hc]

/-! ### exec and step -/

/-- Every instruction answers a next state in every state. -/
theorem exec_next (i : Instr) (s : State) : ∃ t, exec i s = .next t := by
  cases i <;> exact ⟨_, rfl⟩

theorem step_of_halted {s : State} {r : HaltReason} (h : s.run = .halted r) : step s = .fault .halted := by
  simp only [step, runLoop, h]

/-- Everything a step of a Running machine can do: a host halt, the advance fault, or the decoded instruction. -/
theorem step_cases {s : State} (h : s.run = .running) :
    (s.stopRequested = true ∧ step s = .next (s.halt .stopRequest)) ∨
    (s.stopRequested = false ∧ (∃ limit, s.cycleLimit = some limit ∧ limit ≤ s.cycles) ∧
      step s = .next (s.halt .cycleLimit)) ∨
    (s.Ready ∧ s.pc = 0xFFFF ∧ step s = .next (s.countCycle.takeFault (.addressOutOfRange 65536)
      ((Memory.read s.mem s.pc).extractLsb' 12 4) s.pc)) ∨
    (s.Ready ∧ s.pc ≠ 0xFFFF ∧ step s = exec (decode (Memory.read s.mem s.pc)) s.advanced) := by
  have hstep : step s = cycle s := by simp only [step, runLoop, h]
  rw [hstep]
  rcases hostHalt_cases s with ⟨hs, hh⟩ | ⟨hs, hl, hh⟩ | ⟨hs, hl, hh⟩
  · exact .inl ⟨hs, by simp only [cycle, hh]⟩
  · exact .inr (.inl ⟨hs, hl, by simp only [cycle, hh]⟩)
  · refine .inr (.inr ?_)
    have hr : s.Ready := ⟨h, hs, hl⟩
    by_cases hpc : s.pc = 0xFFFF
    · exact .inl ⟨hr, hpc, by
        simp only [cycle, hh, runCycle, advance_at_top (s := s.countCycle) hpc]; rfl⟩
    · exact .inr ⟨hr, hpc, by
        simp only [cycle, hh, runCycle, advance_of_ne (s := s.countCycle) hpc]; rfl⟩

/-- Where a Running machine is ready and below the top address, its step is exec of the decoded instruction. -/
theorem step_of_ready {s : State} (h : s.Ready) (hpc : s.pc ≠ 0xFFFF) :
    step s = exec (decode (Memory.read s.mem s.pc)) s.advanced := by
  obtain ⟨hr, hs, hl⟩ := h
  rcases step_cases hr with ⟨h', -⟩ | ⟨-, ⟨l, h1, h2⟩, -⟩ | ⟨-, h', -⟩ | ⟨-, -, h'⟩
  · rw [hs] at h'; cases h'
  · exact absurd (hl l h1) (by omega)
  · exact absurd h' hpc
  · exact h'

end Sys2Proof.Machine
end

