-- ==== Sys2Proof/Laws/Exec.lean ====
section
/-! SUPPORT. Everything exec can do, said once: the seven shapes an instruction's effect has. Frames and invariants are
case analyses of `exec_effect`; none of them unfolds a meaning again. -/

namespace Sys2Proof.Machine

/-- The effect of instruction `i` on `s`: one constructor for each shape. -/
inductive Effect (s : State) : Instr → State → Prop where
  /-- a flag setter writes its destination and the CC -/
  | result {i : Instr} {dr : Reg} {v : Word} (hd : destReg i = some dr) (hf : setsFlags i = true)
      (hc : transfersControl i = false) (hs : storeOf s i = none) (ht : ∀ n, i ≠ .trap n) : Effect s i (s.writeReg dr v)
  /-- a store writes one word -/
  | stored {i : Instr} {a v : Word} (hs : storeOf s i = some (a, v)) (hf : setsFlags i = false)
      (hc : transfersControl i = false) (ht : ∀ n, i ≠ .trap n) : Effect s i (s.store a v)
  /-- a branch that is not taken -/
  | stays (n z p : Bool) (off : BitVec 9) : Effect s (.br n z p off) s
  /-- a branch or jump writes the PC -/
  | jumps {i : Instr} {a : Word} (hf : setsFlags i = false) (hc : transfersControl i = true)
      (hs : storeOf s i = none) (ht : ∀ n, i ≠ .trap n) : Effect s i (s.setPc a)
  /-- a call writes R7 and the PC -/
  | links {i : Instr} {a : Word} (hd : destReg i = some .r7) (hf : setsFlags i = false)
      (hc : transfersControl i = true) (hs : storeOf s i = none) (ht : ∀ n, i ≠ .trap n) :
      Effect s i ((s.setReg .r7 s.pc).setPc a)
  /-- an illegal encoding -/
  | illegal {i : Instr} (hi : i = .invalid ∨ i = .shfMode10) : Effect s i (s.raise i .invalidOpcode)
  /-- a computed address outside the range -/
  | outOfRange {i : Instr} {ea : Int} (ha : checkedAddress s i = some ea) (ho : ea < 0 ∨ 65535 < ea)
      (hs : storeOf s i = none) (ht : ∀ n, i ≠ .trap n) : Effect s i (s.raise i (.addressOutOfRange ea))
  /-- a TRAP -/
  | hooks (v : BitVec 8) : Effect s (.trap v) (s.callHook s.hook v)

/-- An instruction with a computed address has the effect its continuation has, or raises. -/
theorem effect_of_address {s : State} {i : Instr} {ea : Int} {k : Word → State}
    (ha : checkedAddress s i = some ea) (ht : ∀ n, i ≠ .trap n) (hs : addressOf ea = none → storeOf s i = none)
    (hk : ∀ a, addressOf ea = some a → Effect s i (k a)) : Effect s i (s.withAddress i ea k) := by
  rcases withAddress_cases s i ea k with ⟨a, -, h, he⟩ | ⟨ho, h, he⟩
  · rw [he]; exact hk a h
  · rw [he]; exact .outOfRange ha ho (hs h) ht

/-- Everything exec can do. -/
theorem exec_effect {i : Instr} {s t : State} (h : exec i s = .next t) : Effect s i t := by
  cases i with
  | addReg dr sr1 sr2 => cases h; exact .result rfl rfl rfl rfl (by simp)
  | addImm dr sr1 imm5 => cases h; exact .result rfl rfl rfl rfl (by simp)
  | andReg dr sr1 sr2 => cases h; exact .result rfl rfl rfl rfl (by simp)
  | andImm dr sr1 imm5 => cases h; exact .result rfl rfl rfl rfl (by simp)
  | not dr sr => cases h; exact .result rfl rfl rfl rfl (by simp)
  | lshf dr sr a => cases h; exact .result rfl rfl rfl rfl (by simp)
  | rshfl dr sr a => cases h; exact .result rfl rfl rfl rfl (by simp)
  | rshfa dr sr a => cases h; exact .result rfl rfl rfl rfl (by simp)
  | shfMode10 => cases h; exact .illegal (.inr rfl)
  | br n z p off =>
    cases h
    by_cases hm : s.cc.matchesBits n z p = true
    · rw [if_pos hm]
      exact effect_of_address (if_pos hm) (by simp) (fun _ => rfl) fun a _ => .jumps rfl rfl rfl (by simp)
    · rw [if_neg hm]
      exact .stays n z p off
  | jmp baseR => cases h; exact .jumps rfl rfl rfl (by simp)
  | jsr off =>
    cases h
    exact effect_of_address rfl (by simp) (fun _ => rfl) fun a _ => .links rfl rfl rfl rfl (by simp)
  | jsrr baseR => cases h; exact .links rfl rfl rfl rfl (by simp)
  | ld dr off =>
    cases h
    exact effect_of_address rfl (by simp) (fun _ => rfl) fun a _ => .result rfl rfl rfl rfl (by simp)
  | ldi dr off =>
    cases h
    exact effect_of_address rfl (by simp) (fun _ => rfl) fun a _ => .result rfl rfl rfl rfl (by simp)
  | ldr dr baseR off =>
    cases h
    exact effect_of_address rfl (by simp) (fun _ => rfl) fun a _ => .result rfl rfl rfl rfl (by simp)
  | st sr off =>
    cases h
    exact effect_of_address rfl (by simp) (fun h => by simp only [storeOf, h, Option.map_none])
      fun a h => .stored (by simp only [storeOf, h, Option.map_some]) rfl rfl (by simp)
  | sti sr off =>
    cases h
    exact effect_of_address rfl (by simp) (fun h => by simp only [storeOf, h, Option.map_none])
      fun a h => .stored (by simp only [storeOf, h, Option.map_some]) rfl rfl (by simp)
  | str sr baseR off =>
    cases h
    exact effect_of_address rfl (by simp) (fun h => by simp only [storeOf, h, Option.map_none])
      fun a h => .stored (by simp only [storeOf, h, Option.map_some]) rfl rfl (by simp)
  | lea dr off =>
    cases h
    exact effect_of_address rfl (by simp) (fun _ => rfl) fun a _ => .result rfl rfl rfl rfl (by simp)
  | trap v => cases h; exact .hooks v
  | invalid => cases h; exact .illegal (.inl rfl)

/-- An instruction whose checked address is no address raises AddressOutOfRange. -/
theorem exec_out_of_range {i : Instr} {s : State} {ea : Int} (ha : checkedAddress s i = some ea)
    (ho : ea < 0 ∨ 65535 < ea) : exec i s = .next (s.raise i (.addressOutOfRange ea)) := by
  cases i with
  | br n z p off =>
    by_cases hm : s.cc.matchesBits n z p = true
    · cases (if_pos hm : checkedAddress s (.br n z p off) = _).symm.trans ha
      simp only [exec, execBr, if_pos hm, withAddress_out _ _ _ ho]
    · cases (if_neg hm : checkedAddress s (.br n z p off) = _).symm.trans ha
  | jsr => cases ha; exact congrArg _ (withAddress_out _ _ _ ho)
  | ld => cases ha; exact congrArg _ (withAddress_out _ _ _ ho)
  | ldi => cases ha; exact congrArg _ (withAddress_out _ _ _ ho)
  | ldr => cases ha; exact congrArg _ (withAddress_out _ _ _ ho)
  | st => cases ha; exact congrArg _ (withAddress_out _ _ _ ho)
  | sti => cases ha; exact congrArg _ (withAddress_out _ _ _ ho)
  | str => cases ha; exact congrArg _ (withAddress_out _ _ _ ho)
  | lea => cases ha; exact congrArg _ (withAddress_out _ _ _ ho)
  | _ => cases ha

/-- No instruction changes the host's side of the state (R34, R35). -/
theorem exec_host_frame {i : Instr} {s t : State} (h : exec i s = .next t) :
    t.cycles = s.cycles ∧ t.stopRequested = s.stopRequested ∧ t.cycleLimit = s.cycleLimit ∧ t.trapHook = s.trapHook := by
  cases exec_effect h <;> simp

/-- Every instruction keeps memory in canonical form. -/
theorem exec_wf {i : Instr} {s t : State} (hm : Memory.wf s.mem = true) (h : exec i s = .next t) :
    Memory.wf t.mem = true := by
  cases exec_effect h with
  | stored => exact Memory.write_wf hm _ _
  | hooks v => rw [callHook_mem]; exact Memory.canon_wf _
  | _ => exact hm

end Sys2Proof.Machine
end

