-- ==== Sys2Proof/Laws/PerInstr.lean ====
section
/-! SUPPORT. Statements for all instructions, one lemma per constructor. -/

/-- The top four bits of an instruction's word are its opcode value (R61, R64): the opcode a fault reports is the one
fetched. -/
def Sys2Proof.Laws.OpcodeField.Statement (i : Sys2Proof.Instr) : Prop :=
  (Sys2Proof.encode i).extractLsb' 12 4 = i.opcode

namespace Sys2Proof.Laws.OpcodeField

theorem addReg (dr sr1 sr2 : Reg) : Statement (.addReg dr sr1 sr2) := encode_opcode (.addReg dr sr1 sr2)

theorem addImm (dr sr1 : Reg) (imm5 : BitVec 5) : Statement (.addImm dr sr1 imm5) := encode_opcode (.addImm dr sr1 imm5)

theorem andReg (dr sr1 sr2 : Reg) : Statement (.andReg dr sr1 sr2) := encode_opcode (.andReg dr sr1 sr2)

theorem andImm (dr sr1 : Reg) (imm5 : BitVec 5) : Statement (.andImm dr sr1 imm5) := encode_opcode (.andImm dr sr1 imm5)

theorem not (dr sr : Reg) : Statement (.not dr sr) := encode_opcode (.not dr sr)

theorem lshf (dr sr : Reg) (amount4 : Nat) : Statement (.lshf dr sr amount4) := encode_opcode (.lshf dr sr amount4)

theorem rshfl (dr sr : Reg) (amount4 : Nat) : Statement (.rshfl dr sr amount4) := encode_opcode (.rshfl dr sr amount4)

theorem rshfa (dr sr : Reg) (amount4 : Nat) : Statement (.rshfa dr sr amount4) := encode_opcode (.rshfa dr sr amount4)

theorem shfMode10 : Statement .shfMode10 := rfl

theorem br (n z p : Bool) (pcOffset9 : BitVec 9) : Statement (.br n z p pcOffset9) := encode_opcode (.br n z p pcOffset9)

theorem jmp (baseR : Reg) : Statement (.jmp baseR) := encode_opcode (.jmp baseR)

theorem jsr (pcOffset11 : BitVec 11) : Statement (.jsr pcOffset11) := encode_opcode (.jsr pcOffset11)

theorem jsrr (baseR : Reg) : Statement (.jsrr baseR) := encode_opcode (.jsrr baseR)

theorem ld (dr : Reg) (pcOffset9 : BitVec 9) : Statement (.ld dr pcOffset9) := encode_opcode (.ld dr pcOffset9)

theorem ldi (dr : Reg) (pcOffset9 : BitVec 9) : Statement (.ldi dr pcOffset9) := encode_opcode (.ldi dr pcOffset9)

theorem ldr (dr baseR : Reg) (offset6 : BitVec 6) : Statement (.ldr dr baseR offset6) := encode_opcode (.ldr dr baseR offset6)

theorem st (sr : Reg) (pcOffset9 : BitVec 9) : Statement (.st sr pcOffset9) := encode_opcode (.st sr pcOffset9)

theorem sti (sr : Reg) (pcOffset9 : BitVec 9) : Statement (.sti sr pcOffset9) := encode_opcode (.sti sr pcOffset9)

theorem str (sr baseR : Reg) (offset6 : BitVec 6) : Statement (.str sr baseR offset6) := encode_opcode (.str sr baseR offset6)

theorem lea (dr : Reg) (pcOffset9 : BitVec 9) : Statement (.lea dr pcOffset9) := encode_opcode (.lea dr pcOffset9)

theorem trap (trapvect8 : BitVec 8) : Statement (.trap trapvect8) := encode_opcode (.trap trapvect8)

theorem invalid : Statement .invalid := rfl

end Sys2Proof.Laws.OpcodeField
end

