-- ==== Sys2Proof/Tests/Slice0.lean ====
section
/-! SUPPORT. The model's own tests: ill-formed terms are refused; every constructor's word, written out from R63,
decodes to it; one or two single steps for each instruction, expected values from spec/95_test_vectors.md (part 2) and
the rules' examples; the run loop, the loader and the hook; and, for every obligation with hypotheses, a witness that
they can be met. -/

namespace Sys2Proof.Tests

open Sys2Proof Sys2Proof.Machine

/-! ### Well-formedness -/

theorem test_wf_lshf_amount : (Instr.lshf .r0 .r0 16).wf = false ∧ (Instr.lshf .r0 .r0 15).wf = true := by decide
theorem test_wf_rshfl_amount : (Instr.rshfl .r0 .r0 16).wf = false ∧ (Instr.rshfl .r0 .r0 15).wf = true := by decide
theorem test_wf_rshfa_amount : (Instr.rshfa .r0 .r0 16).wf = false ∧ (Instr.rshfa .r0 .r0 15).wf = true := by decide

/-! ### Decoding: words written out in the fields of R63 -/

theorem test_decode_addReg : decode 0b0001_010_000_0_11_001 = .addReg .r2 .r0 .r1 := by decide
theorem test_decode_addImm : decode 0b0001_001_000_1_11111 = .addImm .r1 .r0 0b11111 := by decide
theorem test_decode_andReg : decode 0b0101_010_000_0_00_001 = .andReg .r2 .r0 .r1 := by decide
theorem test_decode_andImm : decode 0b0101_001_000_1_01111 = .andImm .r1 .r0 0b01111 := by decide
theorem test_decode_not : decode 0b1001_001_110_000000 = .not .r1 .r6 := by decide
theorem test_decode_lshf : decode 0b1101_001_010_00_1111 = .lshf .r1 .r2 15 := by decide
theorem test_decode_rshfl : decode 0b1101_001_010_01_0100 = .rshfl .r1 .r2 4 := by decide
theorem test_decode_rshfa : decode 0b1101_001_010_11_0100 = .rshfa .r1 .r2 4 := by decide
theorem test_decode_shfMode10 : decode 0b1101_001_000_10_0011 = .shfMode10 := by decide
theorem test_decode_br : decode 0b0000_1_0_0_000000101 = .br true false false 5 := by decide
theorem test_decode_br_noop : decode 0b0000_0_0_0_000000000 = .br false false false 0 := by decide
theorem test_decode_jmp : decode 0b1100_111_011_111111 = .jmp .r3 := by decide
theorem test_decode_jsr : decode 0b0100_1_10000000000 = .jsr 0b10000000000 := by decide
theorem test_decode_jsrr : decode 0b0100_0_11_010_000000 = .jsrr .r2 := by decide
theorem test_decode_ld : decode 0b0010_100_000000010 = .ld .r4 2 := by decide
theorem test_decode_ldi : decode 0b1010_000_111111111 = .ldi .r0 0b111111111 := by decide
theorem test_decode_ldr : decode 0b0110_001_010_100000 = .ldr .r1 .r2 0b100000 := by decide
theorem test_decode_st : decode 0b0011_011_011111111 = .st .r3 0b011111111 := by decide
theorem test_decode_sti : decode 0b1011_011_000000001 = .sti .r3 1 := by decide
theorem test_decode_str : decode 0b0111_011_100_111111 = .str .r3 .r4 0b111111 := by decide
theorem test_decode_lea : decode 0b1110_101_100000000 = .lea .r5 0b100000000 := by decide
theorem test_decode_trap : decode 0b1111_1111_00100101 = .trap 0x25 := by decide
theorem test_decode_invalid : decode 0b1000_111111111111 = .invalid := by decide

/-! ### Single steps -/

/-- What stands at the projection of a next state. -/
def look {α : Type} (o : Host.Outcome State Fault Refusal) (f : State → α) : Option α :=
  match o with
  | .next s => some (f s)
  | .fault _ => none
  | .refused _ => none

/-- The vectors' start state: registers 0, CC = Z, `word` at `addr`, the PC there (95 §, conventions). -/
def startAt (addr word : Word) : State := { State.reset with pc := addr, mem := Memory.write [] addr word }

/-- The Halted run state of an AddressOutOfRange. -/
def aor (a : Int) (op : BitVec 4) (pc : Word) : RunState := .halted (.fault (.addressOutOfRange a op pc))

theorem test_addReg_carry_lost :
    look (step (startAt 0x3000 0x1401 |>.setReg .r0 0xFFFF |>.setReg .r1 1)) (fun s => (s.regs.r2, s.cc, s.pc)) = some (0x0000, .z, 0x3001) := by decide
theorem test_addReg_doubles :
    look (step (startAt 0x3000 0x1241 |>.setReg .r1 0x4000)) (fun s => (s.regs.r1, s.cc)) = some (0x8000, .n) := by decide
theorem test_addImm_minus_one :
    look (step (startAt 0x3000 0x123F)) (fun s => (s.regs.r1, s.cc, s.pc)) = some (0xFFFF, .n, 0x3001) := by decide
theorem test_addImm_overflow :
    look (step (startAt 0x3000 0x1021 |>.setReg .r0 0x7FFF)) (fun s => (s.regs.r0, s.cc)) = some (0x8000, .n) := by decide
theorem test_andReg_disjoint :
    look (step (startAt 0x3000 0x5401 |>.setReg .r0 0x00F0 |>.setReg .r1 0x000F)) (fun s => (s.regs.r2, s.cc)) = some (0x0000, .z) := by decide
theorem test_andImm_low_bits :
    look (step (startAt 0x3000 0x522F |>.setReg .r0 0xABCD)) (fun s => (s.regs.r1, s.cc)) = some (0x000D, .p) := by decide
theorem test_andImm_minus_sixteen :
    look (step (startAt 0x3000 0x5230 |>.setReg .r0 0x00FF)) (fun s => (s.regs.r1, s.cc)) = some (0x00F0, .p) := by decide
theorem test_not_in_place :
    look (step (startAt 0x3000 0x903F |>.setReg .r0 0x7FFF)) (fun s => (s.regs.r0, s.cc)) = some (0x8000, .n) := by decide
theorem test_lshf_bit_lost :
    look (step (startAt 0x3000 0xD201 |>.setReg .r0 0x8001)) (fun s => (s.regs.r1, s.cc)) = some (0x0002, .p) := by decide
theorem test_lshf_fifteen :
    look (step (startAt 0x3000 0xD20F |>.setReg .r0 0x0001)) (fun s => (s.regs.r1, s.cc)) = some (0x8000, .n) := by decide
theorem test_rshfl_zeros_in :
    look (step (startAt 0x3000 0xD214 |>.setReg .r0 0xF0F0)) (fun s => (s.regs.r1, s.cc)) = some (0x0F0F, .p) := by decide
theorem test_rshfa_sign_in :
    look (step (startAt 0x3000 0xD234 |>.setReg .r0 0xF0F0)) (fun s => (s.regs.r1, s.cc)) = some (0xFF0F, .n) := by decide
theorem test_rshfa_fifteen :
    look (step (startAt 0x3000 0xD23F |>.setReg .r0 0x8000)) (fun s => (s.regs.r1, s.cc)) = some (0xFFFF, .n) := by decide
theorem test_shfMode10 :
    look (step (startAt 0x3000 0xD223 |>.setReg .r0 0x1234)) (fun s => (s.run, s.regs.r1, s.cc, s.pc)) = some (.halted (.fault (.invalidOpcode 13 0x3000)), 0x0000, .z, 0x3001) := by decide
theorem test_br_taken :
    look (step (startAt 0x3000 0x0E05)) (fun s => s.pc) = some 0x3006 := by decide
theorem test_br_out_of_range :
    look (step (startAt 0x0000 0x0F00)) (fun s => (s.run, s.pc)) = some (aor (-255) 0 0x0000, 0x0001) := by decide
theorem test_jmp :
    look (step (startAt 0x3000 0xCEFF |>.setReg .r3 0x1234)) (fun s => s.pc) = some 0x1234 := by decide
theorem test_jsr :
    look (step (startAt 0x3000 0x4804)) (fun s => (s.regs.r7, s.pc, s.cc)) = some (0x3001, 0x3005, .z) := by decide
theorem test_jsr_out_of_range :
    look (step (startAt 0xFC00 0x4BFF |>.setReg .r7 0xAAAA)) (fun s => (s.run, s.regs.r7, s.pc)) = some (aor 65536 4 0xFC00, 0xAAAA, 0xFC01) := by decide
theorem test_jsrr :
    look (step (startAt 0x3000 0x4080 |>.setReg .r2 0x4000)) (fun s => (s.regs.r7, s.pc)) = some (0x3001, 0x4000) := by decide
theorem test_jsrr_r7 :
    look (step (startAt 0x3000 0x41C0 |>.setReg .r7 0x5000)) (fun s => (s.regs.r7, s.pc)) = some (0x3001, 0x3001) := by decide
theorem test_ld :
    look (step (startAt 0x3000 0x2802 |>.store 0x3003 0x8000)) (fun s => (s.regs.r4, s.cc)) = some (0x8000, .n) := by decide
theorem test_ld_out_of_range :
    look (step (startAt 0x0001 0x29FD |>.setReg .r4 0x7777)) (fun s => (s.run, s.regs.r4, s.pc)) = some (aor (-1) 2 0x0001, 0x7777, 0x0002) := by decide
theorem test_ldi :
    look (step (startAt 0x3000 0xA001 |>.store 0x3002 0xFFFF |>.store 0xFFFF 0x7000)) (fun s => (s.regs.r0, s.cc)) = some (0x7000, .p) := by decide
theorem test_ldr :
    look (step (startAt 0x3000 0x62A0 |>.setReg .r2 0x4000 |>.store 0x3FE0 0xFFF0)) (fun s => (s.regs.r1, s.cc)) = some (0xFFF0, .n) := by decide
theorem test_ldr_out_of_range :
    look (step (startAt 0x3000 0x629F |>.setReg .r2 0xFFF0)) (fun s => s.run) = some (aor 65551 6 0x3000) := by decide
theorem test_st_over_itself :
    look (step (startAt 0x3000 0x37FF |>.setReg .r3 0xBEEF)) (fun s => (Memory.read s.mem 0x3000, s.pc)) = some (0xBEEF, 0x3001) := by decide
theorem test_st_out_of_range :
    look (step (startAt 0xFF80 0x36FF |>.setReg .r3 0xBEEF)) (fun s => (s.run, s.mem)) = some (aor 65664 3 0xFF80, [(0xFF80, 0x36FF)]) := by decide
theorem test_sti_onto_its_pointer :
    look (step (startAt 0x3000 0xB601 |>.setReg .r3 0x1111 |>.store 0x3002 0x3002)) (fun s => Memory.read s.mem 0x3002) = some 0x1111 := by decide
theorem test_str :
    look (step (startAt 0x3000 0x773F |>.setReg .r3 0x00AB |>.setReg .r4 0x5000)) (fun s => Memory.read s.mem 0x4FFF) = some 0x00AB := by decide
theorem test_lea_sets_n :
    look (step (startAt 0x8000 0xEA00)) (fun s => (s.regs.r5, s.cc)) = some (0x8001, .n) := by decide
theorem test_lea_out_of_range :
    look (step (startAt 0x0000 0xEBFE)) (fun s => (s.run, s.regs.r5)) = some (aor (-1) 14 0x0000, 0x0000) := by decide
theorem test_trap_default :
    look (step (startAt 0x3000 0xFF25)) (fun s => (s.run, s.pc, s.regs.r7, s.mem)) = some (.halted .trapHalt, 0x3001, 0x0000, [(0x3000, 0xFF25)]) := by decide
/-- Program P8's hook: Halt on x25, else R0 is the vector and the run goes on (95 §3). -/
def hookP8 : TrapHook := fun (v : BitVec 8) a => if v = 0x25 then (.halt, a) else (.continue, { a with regs := { a.regs with r0 := v.setWidth 16 } })
theorem test_trap_hook_continue :
    ((State.reset.callHook hookP8 0x21).run, (State.reset.callHook hookP8 0x21).regs.r0) = (.running, 0x0021) := by decide
theorem test_invalid :
    look (step (startAt 0x3000 0x8FFF |>.setReg .r1 2)) (fun s => (s.run, s.regs.r1, s.pc)) = some (.halted (.fault (.invalidOpcode 8 0x3000)), 2, 0x3001) := by decide

/-! ### The run loop and the loader -/

theorem test_advance_at_top :
    look (step (startAt 0xFFFF 0x1021)) (fun s => (s.run, s.pc, s.regs.r0, s.cycles)) = some (aor 65536 1 0xFFFF, 0xFFFF, 0, 1) := by decide
theorem test_stop_before_limit :
    look (step { State.reset with stopRequested := true, cycleLimit := some 0 }) id =
      some { State.reset with stopRequested := true, cycleLimit := some 0, run := .halted .stopRequest } := by decide
theorem test_limit_zero :
    look (step { State.reset with cycleLimit := some 0 }) id =
      some { State.reset with cycleLimit := some 0, run := .halted .cycleLimit } := by decide
theorem test_halted_has_no_step : step { State.reset with run := .halted .trapHalt } = .fault .halted := rfl
theorem test_placed_word_runs_first :
    decodeTableWord 16 0x123F = some (.addImm .r1 .r0 0x1F) ∧
    look (step (State.reset.withFetchWord 16 0x123F)) (fun s => s.regs.r1) = some 0xFFFF := by decide

/-- The result of a boot, seen through a projection. -/
def booted {α : Type} (bytes : List Byte) (f : State → α) : Except LoadError α :=
  match boot (some bytes) none none with
  | .ok s => .ok (f s)
  | .error e => .error e

theorem test_boot_default_origin :
    (booted [0x00, 0x00, 0x10, 0x20] fun s => (s.mem, s.pc)).toOption = some ([(0x3000, 0x1020)], 0x3000) := by decide
theorem test_boot_top_word :
    (booted [0xFF, 0xFF, 0x12, 0x34] fun s => (s.mem, s.pc)).toOption = some ([(0xFFFF, 0x1234)], 0xFFFF) := by decide
theorem test_boot_errors :
    loadImage none = .error .streamUnreadable ∧ loadImage (some [0x30]) = .error .truncatedOrigin ∧
    loadImage (some [0x30, 0x00, 0x12]) = .error .truncatedBodyWord ∧
    loadImage (some [0xFF, 0xFF, 0x12, 0x34, 0x56, 0x78]) = .error .imageTooLarge ∧
    loadImage (some [0x30, 0x00]) = .ok ⟨0x3000, []⟩ := ⟨rfl, rfl, rfl, rfl, rfl⟩

/-! ### Witnesses: the hypotheses of each obligation that has some can be met -/

/-- Two cells at the ends of the address space. -/
def edgeMem : Memory := [(0, 1), (0xFFFF, 0x8000)]

/-- A ready state one cycle short of its limit, with two registers set. -/
def readyState (addr word : Word) : State :=
  { startAt addr word with regs := ⟨0x8000, 0x8000, 0xFFFF, 0, 0, 0, 0, 0⟩, cycleLimit := some 1 }

theorem readyState_ready (addr word : Word) : (readyState addr word).Ready :=
  ⟨rfl, rfl, fun limit h => by cases h; exact Nat.one_pos⟩

theorem coreOnly_of_none {i : Instr} {s : State} (h : s.trapHook = none) : coreOnly i s := fun _ => h

theorem witness_DecodeInvertsEncode : (Instr.rshfa .r7 .r7 15).wf = true := by decide

theorem witness_ClassifyIsTheOnlySourceOfFlags :
    ∃ t, coreOnly (.addImm .r0 .r0 1) State.reset ∧ exec (.addImm .r0 .r0 1) State.reset = .next t :=
  ⟨_, coreOnly_of_none rfl, rfl⟩

theorem witness_SignExtensionIsExact : (0 < 1 ∧ 1 ≤ 16 ∧ 15 < 16) ∧ (0 < 16 ∧ 16 ≤ 16 ∧ 0 < 16) := by decide

theorem witness_MemoryWriteReplacesOneWord : Memory.wf edgeMem = true := by decide

theorem witness_CanonicalMemoriesThatReadAlikeAreEqual :
    Memory.wf edgeMem = true ∧ Memory.wf edgeMem = true ∧ ∀ a : Word, Memory.read edgeMem a = Memory.read edgeMem a :=
  ⟨rfl, rfl, fun _ => rfl⟩

theorem witness_AddRegisterModeAddsModulo :
    (0x1401 : Word).extractLsb' 12 4 = 0b0001#4 ∧
    (0x1401 : Word).extractLsb' 5 1 = 0#1 ∧
    (0 : Word).toNat = (((readyState 0 0).regs.get .r0).toNat + ((readyState 0 0).regs.get .r1).toNat) % 65536 := by decide

theorem witness_AddImmediateModeAddsModulo :
    (0x123F : Word).extractLsb' 12 4 = 0b0001#4 ∧
    (0x123F : Word).extractLsb' 5 1 = 1#1 ∧
    ((0x7FF0 : Word).toNat : Int) = (((readyState 0 0).regs.get .r0).toNat + (0b10000 : BitVec 5).toInt) % 65536 ∧
    ((0xFFFF : Word).toNat : Int) = (((readyState 0 0).regs.get .r3).toNat + (0b11111 : BitVec 5).toInt) % 65536 := by decide

theorem witness_AndRegisterModeAndsEachBit :
    (0x5401 : Word).extractLsb' 12 4 = 0b0101#4 ∧
    (0x5401 : Word).extractLsb' 5 1 = 0#1 ∧
    (∀ k, k < 16 → (0x8000 : Word).getLsbD k = (((readyState 0 0).regs.get .r0).getLsbD k && ((readyState 0 0).regs.get .r2).getLsbD k)) := by decide

theorem witness_AndImmediateModeAndsEachBit :
    (0x522F : Word).extractLsb' 12 4 = 0b0101#4 ∧
    (0x522F : Word).extractLsb' 5 1 = 1#1 ∧
    (∀ k, k < 16 → (0xFFF0 : Word).getLsbD k = (((readyState 0 0).regs.get .r2).getLsbD k && (0b10000 : BitVec 5).getLsbD (min k 4))) := by decide

theorem witness_NotComplementsEachBit :
    (0x923F : Word).extractLsb' 12 4 = 0b1001#4 ∧
    (∀ k, k < 16 → (0x7FFF : Word).getLsbD k = !((readyState 0 0).regs.get .r0).getLsbD k) := by decide

theorem witness_LshfShiftsLeft :
    (0xD201 : Word).extractLsb' 12 4 = 0b1101#4 ∧
    (0xD201 : Word).extractLsb' 4 2 = 0b00#2 ∧
    15 < 16 ∧
    (0x8000 : Word).toNat = ((readyState 0 0).regs.get .r2).toNat * 2 ^ 15 % 65536 := by decide

theorem witness_RshflShiftsRightWithZeros :
    (0xD214 : Word).extractLsb' 12 4 = 0b1101#4 ∧
    (0xD214 : Word).extractLsb' 4 2 = 0b01#2 ∧
    15 < 16 ∧
    (1 : Word).toNat = ((readyState 0 0).regs.get .r0).toNat / 2 ^ 15 := by decide

theorem witness_RshfaShiftsRightWithSign :
    (0xD234 : Word).extractLsb' 12 4 = 0b1101#4 ∧
    (0xD234 : Word).extractLsb' 4 2 = 0b11#2 ∧
    15 < 16 ∧
    (0xFFFF : Word).toInt = Int.fdiv ((readyState 0 0).regs.get .r0).toInt (2 ^ 15) := by decide

theorem witness_ShfModeTenHaltsWithInvalidOpcode :
    (0xD223 : Word).extractLsb' 12 4 = 0b1101#4 ∧
    (0xD223 : Word).extractLsb' 4 2 = 0b10#2 := by decide

theorem witness_BranchGoesWhereTheFlagsSay :
    (0x0E05 : Word).extractLsb' 12 4 = 0b0000#4 ∧
    ¬ (true = true ∧ State.reset.cc = .n ∨ false = true ∧ State.reset.cc = .z ∨ true = true ∧ State.reset.cc = .p) ∧
    (false = true ∧ State.reset.cc = .n ∨ true = true ∧ State.reset.cc = .z ∨ false = true ∧ State.reset.cc = .p) ∧
    ((0 : Word).toNat : Int) = (startAt 1 0).pc.toNat + (-1 : BitVec 9).toInt ∧
    ((0xFFFF : Word).toNat : Int) = (startAt 65280 0).pc.toNat + (255 : BitVec 9).toInt ∧
    ((startAt 0 0).pc.toNat : Int) + (-1 : BitVec 9).toInt < 0 ∧
    65535 < ((startAt 65535 0).pc.toNat : Int) + (1 : BitVec 9).toInt := by decide

theorem witness_JumpGoesToTheBaseRegister :
    (0xC0C0 : Word).extractLsb' 12 4 = 0b1100#4 := by decide

theorem witness_JsrLinksAndJumps :
    (0x4804 : Word).extractLsb' 12 4 = 0b0100#4 ∧
    (0x4804 : Word).extractLsb' 11 1 = 1#1 ∧
    ((0 : Word).toNat : Int) = (startAt 1 0).pc.toNat + (-1 : BitVec 11).toInt ∧
    ((0xFFFF : Word).toNat : Int) = (startAt 64512 0).pc.toNat + (1023 : BitVec 11).toInt ∧
    ((startAt 0 0).pc.toNat : Int) + (-1 : BitVec 11).toInt < 0 ∧
    65535 < ((startAt 65535 0).pc.toNat : Int) + (1 : BitVec 11).toInt := by decide

theorem witness_JsrrLinksThenReadsTheBase :
    (0x4080 : Word).extractLsb' 12 4 = 0b0100#4 ∧
    (0x4080 : Word).extractLsb' 11 1 = 0#1 ∧
    Reg.r6 ≠ .r7 ∧
    Reg.r7 = .r7 := by decide

theorem witness_LdLoadsThePcRelativeWord :
    (0x2802 : Word).extractLsb' 12 4 = 0b0010#4 ∧
    ((0 : Word).toNat : Int) = (startAt 1 0).pc.toNat + (-1 : BitVec 9).toInt ∧
    ((0xFFFF : Word).toNat : Int) = (startAt 65280 0).pc.toNat + (255 : BitVec 9).toInt ∧
    ((startAt 0 0).pc.toNat : Int) + (-1 : BitVec 9).toInt < 0 ∧
    65535 < ((startAt 65535 0).pc.toNat : Int) + (1 : BitVec 9).toInt := by decide

theorem witness_LdiLoadsThroughThePointer :
    (0xA001 : Word).extractLsb' 12 4 = 0b1010#4 ∧
    ((0 : Word).toNat : Int) = (startAt 1 0).pc.toNat + (-1 : BitVec 9).toInt ∧
    ((0xFFFF : Word).toNat : Int) = (startAt 65280 0).pc.toNat + (255 : BitVec 9).toInt ∧
    ((startAt 0 0).pc.toNat : Int) + (-1 : BitVec 9).toInt < 0 ∧
    65535 < ((startAt 65535 0).pc.toNat : Int) + (1 : BitVec 9).toInt := by decide

theorem witness_LdrLoadsTheBaseOffsetWord :
    (0x6285 : Word).extractLsb' 12 4 = 0b0110#4 ∧
    ((0 : Word).toNat : Int) = ((startAt 0 0).setReg .r4 1 |>.regs.get .r4).toNat + (-1 : BitVec 6).toInt ∧
    ((0xFFFF : Word).toNat : Int) = ((startAt 0 0).setReg .r4 65504 |>.regs.get .r4).toNat + (31 : BitVec 6).toInt ∧
    (((startAt 0 0).setReg .r4 0 |>.regs.get .r4).toNat : Int) + (-1 : BitVec 6).toInt < 0 ∧
    65535 < (((startAt 0 0).setReg .r4 65535 |>.regs.get .r4).toNat : Int) + (1 : BitVec 6).toInt := by decide

theorem witness_StStoresThePcRelativeWord :
    (0x3605 : Word).extractLsb' 12 4 = 0b0011#4 ∧
    Memory.wf (startAt 0xFFFF 1).mem = true ∧
    ((0 : Word).toNat : Int) = (startAt 1 0).pc.toNat + (-1 : BitVec 9).toInt ∧
    ((0xFFFF : Word).toNat : Int) = (startAt 65280 0).pc.toNat + (255 : BitVec 9).toInt ∧
    ((startAt 0 0).pc.toNat : Int) + (-1 : BitVec 9).toInt < 0 ∧
    65535 < ((startAt 65535 0).pc.toNat : Int) + (1 : BitVec 9).toInt := by decide

theorem witness_StiStoresThroughThePointer :
    (0xB601 : Word).extractLsb' 12 4 = 0b1011#4 ∧
    Memory.wf (startAt 0xFFFF 1).mem = true ∧
    ((0 : Word).toNat : Int) = (startAt 1 0).pc.toNat + (-1 : BitVec 9).toInt ∧
    ((0xFFFF : Word).toNat : Int) = (startAt 65280 0).pc.toNat + (255 : BitVec 9).toInt ∧
    ((startAt 0 0).pc.toNat : Int) + (-1 : BitVec 9).toInt < 0 ∧
    65535 < ((startAt 65535 0).pc.toNat : Int) + (1 : BitVec 9).toInt := by decide

theorem witness_StrStoresTheBaseOffsetWord :
    (0x773F : Word).extractLsb' 12 4 = 0b0111#4 ∧
    Memory.wf (startAt 0xFFFF 1).mem = true ∧
    ((0 : Word).toNat : Int) = ((startAt 0 0).setReg .r4 1 |>.regs.get .r4).toNat + (-1 : BitVec 6).toInt ∧
    ((0xFFFF : Word).toNat : Int) = ((startAt 0 0).setReg .r4 65504 |>.regs.get .r4).toNat + (31 : BitVec 6).toInt ∧
    (((startAt 0 0).setReg .r4 0 |>.regs.get .r4).toNat : Int) + (-1 : BitVec 6).toInt < 0 ∧
    65535 < (((startAt 0 0).setReg .r4 65535 |>.regs.get .r4).toNat : Int) + (1 : BitVec 6).toInt := by decide

theorem witness_LeaGivesTheAddress :
    (0xEA00 : Word).extractLsb' 12 4 = 0b1110#4 ∧
    ((0 : Word).toNat : Int) = (startAt 1 0).pc.toNat + (-1 : BitVec 9).toInt ∧
    ((0xFFFF : Word).toNat : Int) = (startAt 65280 0).pc.toNat + (255 : BitVec 9).toInt ∧
    ((startAt 0 0).pc.toNat : Int) + (-1 : BitVec 9).toInt < 0 ∧
    65535 < ((startAt 65535 0).pc.toNat : Int) + (1 : BitVec 9).toInt := by decide

theorem witness_DefaultTrapHookHaltsAndChangesNothing :
    Memory.wf (startAt 0xFFFF 1).mem = true ∧ (startAt 0xFFFF 1).trapHook = none := by decide

theorem witness_TrapRunsTheSuppliedHook :
    (0xF025 : Word).extractLsb' 12 4 = 0b1111#4 ∧ ({ State.reset with trapHook := some 7 } : State).trapHook = some 7 := by
  decide

theorem witness_ReservedOpcodeHaltsWithInvalidOpcode : (0x8FFF : Word).extractLsb' 12 4 = 0b1000#4 := by decide

/-- With an instruction that goes on, one that faults, and a TRAP. -/
theorem witness_OnlyTheDestinationRegisterChanges :
    (∃ t, (readyState 0 0).run = .running ∧ coreOnly (.jsr 0) (readyState 0 0) ∧
      exec (.jsr 0) (readyState 0 0) = .next t ∧ destReg (.jsr 0) ≠ some .r6) ∧
    (∃ t, (readyState 0 0).run = .running ∧ coreOnly (.lea .r0 0x100) (readyState 0 0) ∧
      exec (.lea .r0 0x100) (readyState 0 0) = .next t ∧ t.run ≠ .running) ∧
    (∃ t, (readyState 0 0).run = .running ∧ coreOnly (.trap 0) (readyState 0 0) ∧
      exec (.trap 0) (readyState 0 0) = .next t ∧ t.run ≠ .running) :=
  ⟨⟨_, rfl, coreOnly_of_none rfl, rfl, by decide⟩, ⟨_, rfl, coreOnly_of_none rfl, rfl, by decide⟩,
    ⟨_, rfl, coreOnly_of_none rfl, rfl, by decide⟩⟩

theorem witness_FlagsFollowTheDestinationOfFlagSetters :
    (∃ t, (readyState 1 0).run = .running ∧ coreOnly (.lea .r0 0) (readyState 1 0) ∧
      exec (.lea .r0 0) (readyState 1 0) = .next t ∧ setsFlags (.lea .r0 0) = true ∧ t.run = .running) ∧
    (∃ t, exec (.trap 0xFF) { State.reset with trapHook := some 0 } = .next t) ∧ setsFlags (.jsr 0) = false :=
  ⟨⟨_, rfl, coreOnly_of_none rfl, rfl, rfl, by decide⟩, ⟨_, rfl⟩, rfl⟩

theorem witness_OnlyControlTransfersWriteThePc :
    ∃ t, (readyState 0 0).run = .running ∧ coreOnly (.lea .r0 0x100) (readyState 0 0) ∧
      exec (.lea .r0 0x100) (readyState 0 0) = .next t ∧ transfersControl (.lea .r0 0x100) = false ∧ t.run ≠ .running :=
  ⟨_, rfl, coreOnly_of_none rfl, rfl, rfl, by decide⟩

theorem witness_OnlyTheStoredWordOfMemoryChanges :
    (∃ t, Memory.wf (readyState 0xFFFF 1).mem = true ∧ coreOnly (.st .r0 0) (readyState 0xFFFF 1) ∧
      exec (.st .r0 0) (readyState 0xFFFF 1) = .next t ∧ storeOf (readyState 0xFFFF 1) (.st .r0 0) = some (0xFFFF, 0x8000)) ∧
    (∃ t, exec (.st .r0 1) (readyState 0xFFFF 1) = .next t ∧ storeOf (readyState 0xFFFF 1) (.st .r0 1) = none) :=
  ⟨⟨_, rfl, coreOnly_of_none rfl, rfl, by decide⟩, ⟨_, rfl, by decide⟩⟩

theorem witness_StopRequestHaltsAtTheTopOfACycle :
    (State.reset.requestStop.run = .running ∧ State.reset.requestStop.stopRequested = true) ∧
    ∃ t, exec (.jmp .r0) State.reset = .next t :=
  ⟨⟨rfl, rfl⟩, ⟨_, rfl⟩⟩

theorem witness_InstructionsNeitherReadNorWriteTheHostSide : ∃ t, exec (.trap 1) State.reset = .next t := ⟨_, rfl⟩

theorem witness_StepRunsTheDecodedInstruction : (readyState 0xFFFE 0).Ready ∧ (readyState 0xFFFE 0).pc ≠ 0xFFFF :=
  ⟨readyState_ready _ _, by decide⟩

theorem witness_CycleLimitHaltsBeforeTheNextCycle :
    ({ State.reset with cycleLimit := some 0 } : State).run = .running ∧
    ({ State.reset with cycleLimit := some 0 } : State).stopRequested = false ∧
    ({ State.reset with cycleLimit := some 0 } : State).cycleLimit = some 0 ∧
    0 ≤ ({ State.reset with cycleLimit := some 0 } : State).cycles := by decide

theorem witness_AdvanceFromTheTopAddressFaults : (readyState 0xFFFF 0).Ready ∧ (readyState 0xFFFF 0).pc = 0xFFFF :=
  ⟨readyState_ready _ _, rfl⟩

theorem witness_HaltedIsTerminal : ({ State.reset with run := .halted .stopRequest } : State).run = .halted .stopRequest := rfl

theorem witness_EveryInstructionAndEveryRunningStepCompletes : State.reset.run = .running := rfl

theorem witness_HandlersContinueHaltByTrapOrFault :
    ∃ t, State.reset.run = .running ∧ exec .invalid State.reset = .next t := ⟨_, rfl, rfl⟩

theorem witness_HaltReasonsAreExactlyTheFive :
    (∃ t, (readyState 0 0x8000).run = .running ∧ step (readyState 0 0x8000) = .next t ∧
      t.run = .halted (.fault (.invalidOpcode 8 0))) ∧
    (∃ t, (readyState 0 0xD020).run = .running ∧ step (readyState 0 0xD020) = .next t ∧
      t.run = .halted (.fault (.invalidOpcode 13 0))) ∧
    (∃ t, (readyState 0 0xF000).run = .running ∧ step (readyState 0 0xF000) = .next t ∧ t.run = .halted .trapHalt) ∧
    (∃ t, (readyState 0xFFFF 0).run = .running ∧ step (readyState 0xFFFF 0) = .next t ∧ t.run = aor 65536 0 0xFFFF) ∧
    (∃ t, (readyState 0xFFFE 0xE001).run = .running ∧ step (readyState 0xFFFE 0xE001) = .next t ∧
      t.run = aor 65536 14 0xFFFE) ∧
    (∃ t, (readyState 0xFFFE 0xE000).run = .running ∧ step (readyState 0xFFFE 0xE000) = .next t ∧ t.run = .running) :=
  ⟨⟨_, rfl, rfl, by decide⟩, ⟨_, rfl, rfl, by decide⟩, ⟨_, rfl, rfl, by decide⟩, ⟨_, rfl, rfl, by decide⟩,
    ⟨_, rfl, rfl, by decide⟩, ⟨_, rfl, rfl, by decide⟩⟩

/-- One state for each row of R202's table, at the ends of its range. -/
theorem witness_AddressFaultReportsFollowTheTable :
    (∃ t, (readyState 0xFFFF 0x1021).run = .running ∧ step (readyState 0xFFFF 0x1021) = .next t ∧
      t.run = aor 65536 1 0xFFFF) ∧
    (∃ t, step (readyState 0 0x0F00) = .next t ∧ t.run = aor (-255) 0 0) ∧
    (∃ t, step (readyState 0xFFFE 0x20FF) = .next t ∧ t.run = aor 65790 2 0xFFFE) ∧
    (∃ t, step (readyState 0 0x4C00) = .next t ∧ t.run = aor (-1023) 4 0) ∧
    (∃ t, step (readyState 0xFFFE 0x4BFF) = .next t ∧ t.run = aor 66558 4 0xFFFE) ∧
    (∃ t, step (readyState 0 0x60E0) = .next t ∧ t.run = aor (-32) 6 0) ∧
    (∃ t, step (readyState 0 0x709F) = .next t ∧ t.run = aor 65566 7 0) :=
  ⟨⟨_, rfl, rfl, by decide⟩, ⟨_, rfl, by decide⟩, ⟨_, rfl, by decide⟩, ⟨_, rfl, by decide⟩, ⟨_, rfl, by decide⟩,
    ⟨_, rfl, by decide⟩, ⟨_, rfl, by decide⟩⟩

theorem witness_FaultingCycleCommitsNothing :
    (∃ t, (readyState 0xFFFF 0).run = .running ∧ step (readyState 0xFFFF 0) = .next t ∧
      t.run = .halted (.fault (.addressOutOfRange 65536 0 0xFFFF))) ∧
    (∃ t, (readyState 0xFFFE 0x8000).run = .running ∧ step (readyState 0xFFFE 0x8000) = .next t ∧
      t.run = .halted (.fault (.invalidOpcode 8 0xFFFE))) :=
  ⟨⟨_, rfl, rfl, by decide⟩, ⟨_, rfl, rfl, by decide⟩⟩

theorem witness_BranchWithoutConditionsIsANoOp :
    (readyState 0xFFFE 0x01FF).Ready ∧ (readyState 0xFFFE 0x01FF).pc ≠ 0xFFFF ∧
    (Memory.read (readyState 0xFFFE 0x01FF).mem (readyState 0xFFFE 0x01FF).pc).extractLsb' 9 7 = 0#7 :=
  ⟨readyState_ready _ _, by decide, by decide⟩

/-- ST R2, #0 at 0x3000, with a limit of two cycles so that the next cycle is ready too. -/
theorem witness_StoreIsSeenByTheVeryNextFetch :
    ∃ t, ({ readyState 0x3000 0x3400 with cycleLimit := some 2 } : State).Ready ∧
      Memory.wf (readyState 0x3000 0x3400).mem = true ∧ (readyState 0x3000 0x3400).pc ≠ 0xFFFF ∧
      storeOf (readyState 0x3000 0x3400).advanced (decode (Memory.read (readyState 0x3000 0x3400).mem 0x3000)) =
        some (0x3000 + 1, 0xFFFF) ∧
      step { readyState 0x3000 0x3400 with cycleLimit := some 2 } = .next t ∧ t.Ready ∧ t.pc ≠ 0xFFFF :=
  ⟨_, ⟨rfl, rfl, fun limit h => by cases h; decide⟩, by decide, by decide, by decide, rfl,
    ⟨by decide, by decide, fun limit h => by cases h; decide⟩, by decide⟩

theorem witness_StepKeepsTheInvariant :
    ∃ t, (readyState 0xFFFE 0).Inv ∧ step (readyState 0xFFFE 0) = .next t :=
  ⟨_, ⟨by decide, fun limit h => by cases h; decide⟩, rfl⟩

theorem witness_ReachableStatesHaveTheInvariant : Reachable State.reset.requestStop :=
  .stop (.boot (stream := some [0, 0]) (hook := none) (limit := none) rfl)

theorem witness_CycleLimitBoundsEveryRun :
    (readyState 0 0).run = .running ∧ (readyState 0 0).cycleLimit = some 1 ∧ (readyState 0 0).cycles ≤ 1 := by decide

theorem witness_ResetAndBootState : ∃ s, boot (some [0xFF, 0xFF, 0x12, 0x34]) (some 0) (some 0) = .ok s := ⟨_, rfl⟩

theorem witness_BootLoadsTheImageAtItsOrigin :
    ((0x3000 : Word) = if (0 : Word) = 0 then 0x3000 else 0) ∧ (0x3000 : Word).toNat + ([] : List Word).length ≤ 65536 ∧
    ((0xFFFF : Word) = if (0xFFFF : Word) = 0 then 0x3000 else 0xFFFF) ∧
    (0xFFFF : Word).toNat + ([0x1234] : List Word).length ≤ 65536 ∧
    (0xFFFF : Word).toNat = (0xFFFF : Word).toNat + 0 ∧ (0xFFFE : Word).toNat < (0xFFFF : Word).toNat := by decide

theorem witness_BootFailsExactlyOnABadImage :
    ([0x30] : List Byte).length < 2 ∧ (0xFFFF : Word) = (0xFF : Byte) ++ (0xFF : Byte) ∧
    ((0xFFFF : Word) = if (0xFFFF : Word) = 0 then 0x3000 else 0xFFFF) ∧
    (∃ e, boot (some [0xFF, 0xFF, 0x12]) none none = .error e) ∧
    (∃ e, boot (some [0xFF, 0xFF, 0x12, 0x34, 0x56, 0x78]) none none = .error e) :=
  ⟨by decide, by decide, by decide, ⟨_, rfl⟩, ⟨_, rfl⟩⟩

end Sys2Proof.Tests
end

/-! PROOFS. Spec 00_scope.md: `classify` and the flags (R7), sign extension (R6). -/

namespace Sys2Proof.Machine

/-! ### The condition code -/

theorem classify_eq_z_iff (v : Word) : classify v = .z ↔ v = 0 := by
  unfold classify
  split
  case isTrue hz => exact iff_of_true rfl hz
  case isFalse hz => exact iff_of_false (by split <;> decide) hz

theorem classify_eq_n_iff (v : Word) : classify v = .n ↔ v.getLsbD 15 = true := by
  rw [← show v.msb = v.getLsbD 15 from BitVec.msb_eq_getLsbD_last v]
  unfold classify
  split
  case isTrue hz => subst hz; decide
  case isFalse =>
    split
    case isTrue hm => exact iff_of_true rfl hm
    case isFalse hm => exact iff_of_false (by decide) hm

/-- Positive is what is neither Zero nor Negative. -/
theorem classify_eq_p_iff (v : Word) : classify v = .p ↔ v ≠ 0 ∧ v.getLsbD 15 = false := by
  rw [ne_eq, ← classify_eq_z_iff, ← Bool.not_eq_true, ← classify_eq_n_iff]
  cases classify v <;> simp

/-- A TRAP that no supplied hook answers leaves the CC (R192). -/
theorem callHook_cc_of_none {s : State} (h : s.trapHook = none) (v : BitVec 8) :
    (s.callHook s.hook v).cc = s.cc := by
  rw [callHook_cc, hook_of_none h, defaultTrapHook]

/-- What an instruction of the core can do to the CC (R7, R28): leave it, or classify the word its destination then
holds. -/
theorem exec_cc {i : Instr} {s t : State} (hcore : coreOnly i s) (h : exec i s = .next t) :
    t.cc = s.cc ∨ ∃ r : Reg, destReg i = some r ∧ t.cc = classify (t.regs.get r) := by
  cases exec_effect h with
  | result hd =>
    refine .inr ⟨_, hd, ?_⟩
    rw [State.writeReg_cc, State.writeReg_regs, Regs.get_set_self]
  | hooks v => exact .inl (callHook_cc_of_none (hcore ⟨v, rfl⟩) v)
  | stored | stays | jumps | links | illegal | outOfRange => exact .inl rfl

/-- Settles O7: `classify` by its two tests; the flags by the shapes `exec_effect` lists, of which only a flag setter's
result writes the CC. -/
theorem classifyIsTheOnlySourceOfFlags : Obligations.ClassifyIsTheOnlySourceOfFlags := by
  unfold Obligations.ClassifyIsTheOnlySourceOfFlags
  exact ⟨fun v => ⟨classify_eq_z_iff v, classify_eq_n_iff v, classify_eq_p_iff v⟩, fun _ _ _ => exec_cc⟩

/-! ### Sign extension -/

/-- The bits of a sign-extended field: its own, then its top bit repeated. -/
theorem getLsbD_sext {n : Nat} (f : BitVec n) {k : Nat} (hk : k < 16) :
    (sext f).getLsbD k = if k < n then f.getLsbD k else f.msb := by
  rw [sext, BitVec.getLsbD_signExtend, decide_eq_true hk, Bool.true_and]

/-- The bits of the sign extension of a word's low `n` bits, in terms of the word (R6). -/
theorem getLsbD_sext_extractLsb' {n k : Nat} (v : Word) (hn : 0 < n) (hk : k < 16) :
    (sext (v.extractLsb' 0 n)).getLsbD k = if k < n then v.getLsbD k else v.getLsbD (n - 1) := by
  have hlow : ∀ j < n, (v.extractLsb' 0 n).getLsbD j = v.getLsbD j := fun j hj => by
    rw [BitVec.getLsbD_extractLsb', decide_eq_true hj, Bool.true_and, Nat.zero_add]
  rw [getLsbD_sext _ hk, BitVec.msb_eq_getLsbD_last, hlow (n - 1) (by omega)]
  by_cases h : k < n
  · rw [if_pos h, if_pos h, hlow k h]
  · rw [if_neg h, if_neg h]

/-- Settles O8: each bit by the bits of `sext`, and the range because the extension keeps the field's signed value. -/
theorem signExtensionIsExact : Obligations.SignExtensionIsExact := by
  unfold Obligations.SignExtensionIsExact
  intro n v hpos hle
  refine ⟨fun k hk => getLsbD_sext_extractLsb' v hpos hk, ?_⟩
  rw [sval, sext_toInt hle]
  exact ⟨BitVec.le_toInt _, BitVec.toInt_lt⟩

end Sys2Proof.Machine

/-! PROOFS. Spec 10_state.md: what an instruction leaves alone (R21, R24, R26, R28, R34, R35), the stop request (R34) and
the cycle limit (R35). -/

namespace Sys2Proof.Machine

/-! ### The register file -/

/-- Settles O9: three-bit indices and registers invert each other; a read after a write. -/
theorem registersAreIndependent : Obligations.RegistersAreIndependent := by
  unfold Obligations.RegistersAreIndependent
  exact ⟨Reg.toBits_ofBits, Reg.ofBits_toBits, Regs.get_set⟩

/-! ### What the core writes -/

/-- A TRAP that no supplied hook answers halts over the state it found, with memory brought to canonical form (R192). -/
theorem callHook_of_none {s : State} (h : s.trapHook = none) (v : BitVec 8) :
    s.callHook s.hook v = (s.install s.toArchState).halt .trapHalt := by
  rw [hook_of_none h]
  rfl

/-- An instruction of the core that halts, by a fault or by TRAP, writes no register, no PC and no CC (R110, D12). -/
theorem exec_halt_frame {i : Instr} {s t : State} (hrun : s.run = .running) (hcore : coreOnly i s)
    (h : exec i s = .next t) (hhalt : t.run ≠ .running) : t.regs = s.regs ∧ t.pc = s.pc ∧ t.cc = s.cc := by
  cases exec_effect h with
  | result | stored | stays | jumps | links => exact absurd hrun hhalt
  | illegal | outOfRange => exact ⟨rfl, rfl, rfl⟩
  | hooks v =>
    rw [callHook_of_none (hcore ⟨v, rfl⟩) v]
    exact ⟨rfl, rfl, rfl⟩

/-- A register that is not the destination keeps its word (R22, R24). -/
theorem exec_get_of_ne_dest {i : Instr} {s t : State} {r : Reg} (hcore : coreOnly i s) (h : exec i s = .next t)
    (hr : destReg i ≠ some r) : t.regs.get r = s.regs.get r := by
  cases exec_effect h with
  | result hd | links hd => exact Regs.get_set_of_ne _ (fun he => hr (hd.trans (congrArg some he.symm))) _
  | hooks v => rw [callHook_of_none (hcore ⟨v, rfl⟩) v, State.halt_regs, State.install_regs]
  | stored | stays | jumps | illegal | outOfRange => rfl

/-- Settles O35: by the frame of the register file and the frame of a halt. -/
theorem onlyTheDestinationRegisterChanges : Obligations.OnlyTheDestinationRegisterChanges := by
  unfold Obligations.OnlyTheDestinationRegisterChanges
  intro i s t hrun hcore h
  refine ⟨fun r => exec_get_of_ne_dest hcore h, fun hhalt => ?_⟩
  obtain ⟨hregs, -, -⟩ := exec_halt_frame hrun hcore h hhalt
  exact hregs

/-- A flag setter that goes on leaves the class of its destination's new word in the CC (R28, C1). -/
theorem exec_cc_of_setsFlags {i : Instr} {s t : State} (h : exec i s = .next t) (hf : setsFlags i = true)
    (hrun : t.run = .running) : ∃ dr : Reg, destReg i = some dr ∧ t.cc = classify (t.regs.get dr) := by
  cases exec_effect h with
  | result hd => exact ⟨_, hd, by rw [State.writeReg_cc, State.writeReg_regs, Regs.get_set_self]⟩
  | stored _ hf' | jumps hf' | links _ hf' => cases hf'.symm.trans hf
  | stays | hooks => cases hf
  | illegal | outOfRange => cases hrun

/-- What is no flag setter leaves the CC (R29, C2, D16). -/
theorem exec_cc_of_not_setsFlags {i : Instr} {s t : State} (hcore : coreOnly i s) (h : exec i s = .next t)
    (hf : setsFlags i = false) : t.cc = s.cc := by
  cases exec_effect h with
  | result _ hf' => cases hf'.symm.trans hf
  | hooks v => exact callHook_cc_of_none (hcore ⟨v, rfl⟩) v
  | stored | stays | jumps | links | illegal | outOfRange => rfl

/-- After TRAP the CC is the one its hook left, whichever hook answers (R190). -/
theorem exec_trap_cc {v : BitVec 8} {s t : State} (h : exec (.trap v) s = .next t) :
    t.cc = (s.hook v s.toArchState).2.cc := by
  cases h
  exact callHook_cc s s.hook v

/-- Settles O36: flag setters, the other instructions, halts, and TRAP, each by its own lemma. -/
theorem flagsFollowTheDestinationOfFlagSetters : Obligations.FlagsFollowTheDestinationOfFlagSetters := by
  unfold Obligations.FlagsFollowTheDestinationOfFlagSetters
  refine ⟨fun i s t hrun hcore h => ⟨exec_cc_of_setsFlags h, exec_cc_of_not_setsFlags hcore h, fun hhalt => ?_⟩,
    fun v s t => exec_trap_cc⟩
  obtain ⟨-, -, hcc⟩ := exec_halt_frame hrun hcore h hhalt
  exact hcc

/-- What transfers no control leaves the advanced PC (R26). -/
theorem exec_pc_of_not_transfersControl {i : Instr} {s t : State} (hcore : coreOnly i s) (h : exec i s = .next t)
    (hc : transfersControl i = false) : t.pc = s.pc := by
  cases exec_effect h with
  | jumps _ hc' | links _ _ hc' => cases hc'.symm.trans hc
  | hooks v => rw [callHook_of_none (hcore ⟨v, rfl⟩) v, State.halt_pc, State.install_pc]
  | result | stored | stays | illegal | outOfRange => rfl

/-- Settles O37: by the frame of the PC and the frame of a halt. -/
theorem onlyControlTransfersWriteThePc : Obligations.OnlyControlTransfersWriteThePc := by
  unfold Obligations.OnlyControlTransfersWriteThePc
  intro i s t hrun hcore h
  refine ⟨exec_pc_of_not_transfersControl hcore h, fun hhalt => ?_⟩
  obtain ⟨-, hpc, -⟩ := exec_halt_frame hrun hcore h hhalt
  exact hpc

/-! ### The host's side of the state -/

/-- The state with other values of the cycle counter, the stop request and the cycle limit (R34, R35). -/
def State.withHostSide (s : State) (c : Nat) (b : Bool) (l : Option Nat) : State :=
  { s with cycles := c, stopRequested := b, cycleLimit := l }

section
variable {i : Instr} {s t : State} (c : Nat) (b : Bool) (l : Option Nat)

/-- The range check reads nothing of the host's side: if the continuation keeps other values of it, so does the
instruction. -/
theorem withAddress_withHostSide {ea : Int} {k k' : Word → State} (hk : ∀ a, k' a = (k a).withHostSide c b l) :
    (s.withHostSide c b l).withAddress i ea k' = (s.withAddress i ea k).withHostSide c b l := by
  unfold State.withAddress
  split
  · exact hk _
  · rfl

/-- A hook is given nothing of the host's side and leaves nothing there (R191; log 13). -/
theorem callHook_withHostSide (hook : TrapHook) (v : BitVec 8) :
    (s.withHostSide c b l).callHook hook v = (s.callHook hook v).withHostSide c b l := by
  unfold State.callHook
  rw [show (s.withHostSide c b l).toArchState = s.toArchState from rfl]
  split <;> rfl

/-- No instruction reads the host's side: with other values of it, it has the same effect and keeps them. -/
theorem exec_withHostSide (h : exec i s = .next t) : exec i (s.withHostSide c b l) = .next (t.withHostSide c b l) := by
  cases i with
  | addReg | addImm | andReg | andImm | not | lshf | rshfl | rshfa | shfMode10 | jmp | jsrr | invalid => cases h; rfl
  | br n z p off =>
    cases h
    refine congrArg Host.Outcome.next ?_
    rw [show (s.withHostSide c b l).cc = s.cc from rfl]
    split
    · exact withAddress_withHostSide c b l fun _ => rfl
    · rfl
  | jsr | ld | ldi | ldr | st | sti | str | lea =>
    cases h
    exact congrArg Host.Outcome.next (withAddress_withHostSide c b l fun _ => rfl)
  | trap v =>
    cases h
    exact congrArg Host.Outcome.next (callHook_withHostSide c b l s.hook v)

end

/-- Settles O40: what is written by `exec_host_frame`, what is read by `exec_withHostSide`. -/
theorem instructionsNeitherReadNorWriteTheHostSide : Obligations.InstructionsNeitherReadNorWriteTheHostSide := by
  unfold Obligations.InstructionsNeitherReadNorWriteTheHostSide
  intro i s t c b l h
  obtain ⟨hcycles, hstop, hlimit, hhook⟩ := exec_host_frame h
  exact ⟨hcycles, hstop, hlimit, hhook, exec_withHostSide c b l h⟩

/-- No instruction reads the stop request. -/
theorem exec_with_stopRequested {i : Instr} {s t : State} (b : Bool) (h : exec i s = .next t) :
    exec i { s with stopRequested := b } = .next { t with stopRequested := b } := by
  obtain ⟨hcycles, -, hlimit, -⟩ := exec_host_frame h
  have ht : t.withHostSide s.cycles b s.cycleLimit = { t with stopRequested := b } := by
    rw [← hcycles, ← hlimit]
    rfl
  exact ht ▸ exec_withHostSide s.cycles b s.cycleLimit h

/-- The stop request halts a Running machine in its next step, ahead of a reached cycle limit (R101, D18). -/
theorem step_of_stopRequested {s : State} (hrun : s.run = .running) (hstop : s.stopRequested = true) :
    step s = .next (s.halt .stopRequest) := by
  rcases step_cases hrun with ⟨-, h⟩ | ⟨hno, -⟩ | ⟨⟨-, hno, -⟩, -⟩ | ⟨⟨-, hno, -⟩, -⟩
  · exact h
  all_goals cases hno.symm.trans hstop

/-- Settles O39: the step by the host checks, the host's move by definition, the instructions because none reads or
writes the host's side. -/
theorem stopRequestHaltsAtTheTopOfACycle : Obligations.StopRequestHaltsAtTheTopOfACycle := by
  unfold Obligations.StopRequestHaltsAtTheTopOfACycle
  refine ⟨fun s => step_of_stopRequested, fun s => rfl, fun i s t b h => ?_⟩
  obtain ⟨-, hstop, -, -⟩ := exec_host_frame h
  exact ⟨hstop, exec_with_stopRequested b h⟩

/-! ### The cycle limit -/

/-- A step within a cycle limit stays within it, and one that goes on has begun a cycle (R35, R101). -/
theorem step_within_limit {s : State} {limit : Nat} (hrun : s.run = .running) (hlimit : s.cycleLimit = some limit)
    (hle : s.cycles ≤ limit) :
    ∃ t, step s = .next t ∧ t.cycleLimit = some limit ∧ t.cycles ≤ limit ∧ (t.run = .running → s.cycles < t.cycles) := by
  rcases step_cases hrun with ⟨-, h⟩ | ⟨-, -, h⟩ | ⟨⟨-, -, hlt⟩, -, h⟩ | ⟨⟨-, -, hlt⟩, -, h⟩
  · exact ⟨_, h, hlimit, hle, fun hr => by cases hr⟩
  · exact ⟨_, h, hlimit, hle, fun hr => by cases hr⟩
  · exact ⟨_, h, hlimit, hlt limit hlimit, fun hr => by cases hr⟩
  · obtain ⟨t, ht⟩ := exec_next (decode (Memory.read s.mem s.pc)) s.advanced
    obtain ⟨hcycles, -, hlimit', -⟩ := exec_host_frame ht
    rw [State.advanced_cycles] at hcycles
    exact ⟨t, h.trans ht, hlimit'.trans hlimit, hcycles ▸ hlt limit hlimit, fun _ => by omega⟩

/-- A run goes on from the state its first step leaves. -/
theorem run_succ_of_step {M : Host.Core} {s t : M.State} (k : Nat) (h : M.step s = .next t) :
    M.run (k + 1) s = M.run k t := by
  rw [Host.Core.run, h]

/-- A run of steps within a cycle limit halts within it, after at most one step more than the cycles left (R240, D17). -/
theorem run_halts_within_limit {s : State} {limit : Nat} (hrun : s.run = .running) (hlimit : s.cycleLimit = some limit)
    (hle : s.cycles ≤ limit) :
    ∃ (k : Nat) (t : State) (r : HaltReason), k ≤ limit - s.cycles + 1 ∧ core.run k s = .next t ∧
      t.run = .halted r ∧ t.cycles ≤ limit := by
  obtain ⟨t, hstep, hlimit', hle', hbegun⟩ := step_within_limit hrun hlimit hle
  cases hrun' : t.run with
  | halted r => exact ⟨1, t, r, by omega, run_succ_of_step 0 hstep, hrun', hle'⟩
  | running =>
    have hlt := hbegun hrun'
    obtain ⟨k, u, r, hk, hu, hhalt, hcycles⟩ := run_halts_within_limit hrun' hlimit' hle'
    exact ⟨k + 1, u, r, by omega, (run_succ_of_step k hstep).trans hu, hhalt, hcycles⟩
termination_by limit - s.cycles

/-- Settles O55: by induction on the cycles left, each step that goes on beginning one. -/
theorem cycleLimitBoundsEveryRun : Obligations.CycleLimitBoundsEveryRun := by
  unfold Obligations.CycleLimitBoundsEveryRun
  exact fun s limit => run_halts_within_limit

end Sys2Proof.Machine

/-! PROOFS. Spec 20_memory.md: the canonical form as an invariant of every step and every run (R40, R35), MemWrite (R47),
memory read as equality (R40, R41), the memory frame of instructions (R47), stores into the instruction stream (R55). -/

namespace Sys2Proof.Machine

/-! ### The invariant -/

/-- An instruction keeps the invariant: canonical memory by `exec_wf`, and the host's side it does not write. -/
theorem exec_keeps_inv {i : Instr} {s t : State} (hi : s.Inv) (h : exec i s = .next t) : t.Inv := by
  obtain ⟨hwf, hle⟩ := hi
  obtain ⟨hcycles, -, hlimit, -⟩ := exec_host_frame h
  refine ⟨exec_wf hwf h, ?_⟩
  rw [hcycles, hlimit]
  exact hle

/-- A cycle begins only below the limit, so counting it keeps the invariant (R101, D17). -/
theorem advanced_inv {s : State} (hready : s.Ready) (hi : s.Inv) : s.advanced.Inv := by
  obtain ⟨-, -, hlt⟩ := hready
  obtain ⟨hwf, -⟩ := hi
  exact ⟨hwf, hlt⟩

/-- A halt for any reason keeps the invariant. -/
theorem halt_inv {s : State} (hi : s.Inv) (r : HaltReason) : (s.halt r).Inv := hi

/-- A fault of the advance keeps the invariant: its cycle is counted, as that of an instruction is. -/
theorem countCycle_takeFault_inv {s : State} (hready : s.Ready) (hi : s.Inv) (r : Raise) (op : BitVec 4) (at' : Word) :
    (s.countCycle.takeFault r op at').Inv := advanced_inv hready hi

/-- Only a Running machine has a next state (R108). -/
theorem running_of_step {s t : State} (h : step s = .next t) : s.run = .running := by
  cases hrun : s.run with
  | running => rfl
  | halted r => cases h.symm.trans (step_of_halted hrun)

/-- A step keeps the invariant, in each of the four things it can do. -/
theorem step_keeps_inv {s t : State} (hi : s.Inv) (h : step s = .next t) : t.Inv := by
  rcases step_cases (running_of_step h) with ⟨-, hs⟩ | ⟨-, -, hs⟩ | ⟨hready, -, hs⟩ | ⟨hready, -, hs⟩
  · cases h.symm.trans hs
    exact halt_inv hi _
  · cases h.symm.trans hs
    exact halt_inv hi _
  · cases h.symm.trans hs
    exact countCycle_takeFault_inv hready hi _ _ _
  · exact exec_keeps_inv (advanced_inv hready hi) (hs.symm.trans h)

/-- Settles O52: by what a step can do; of the instructions, a store writes canonically and a hook's memory is made
canonical. -/
theorem stepKeepsTheInvariant : Obligations.StepKeepsTheInvariant := by
  unfold Obligations.StepKeepsTheInvariant
  exact fun s t => step_keeps_inv

/-! ### Every reachable state -/

/-- An image that loads fits below 65,536 (R232 d). -/
theorem loadImage_fits {stream : Option (List Byte)} {image : Image} (h : loadImage stream = .ok image) :
    image.origin.toNat + image.body.length ≤ Config.memoryWords := by
  unfold loadImage at h
  split at h
  case h_1 | h_3 => cases h
  case h_2 =>
    dsimp only at h
    split at h
    case h_1 hfits =>
      cases h
      exact Nat.le_of_not_gt (of_decide_eq_false hfits)
    case h_2 | h_3 | h_4 => cases h

/-- What boots starts from the initial state of the image it loaded (R235). -/
theorem loadImage_of_boot {stream : Option (List Byte)} {hook limit : Option Nat} {s : State}
    (h : boot stream hook limit = .ok s) :
    ∃ image, loadImage stream = .ok image ∧ s = image.initialState hook limit := by
  unfold boot at h
  split at h
  case h_1 image hload =>
    cases h
    exact ⟨image, hload, rfl⟩
  case h_2 => cases h

/-- Every boot starts with the invariant: the load of an image that fits is canonical, and no cycle has begun (R234). -/
theorem boot_inv {stream : Option (List Byte)} {hook limit : Option Nat} {s : State}
    (h : boot stream hook limit = .ok s) : s.Inv := by
  obtain ⟨image, hload, rfl⟩ := loadImage_of_boot h
  exact ⟨Memory.putAll_wf rfl image.origin.toNat image.body (loadImage_fits hload), fun limit _ => Nat.zero_le limit⟩

/-- Settles O54: by induction over the run: the boots, the steps (`step_keeps_inv`), and the stop request, which writes
neither memory nor the counter. -/
theorem reachableStatesHaveTheInvariant : Obligations.ReachableStatesHaveTheInvariant := by
  unfold Obligations.ReachableStatesHaveTheInvariant
  intro s hreach
  induction hreach with
  | boot hboot => exact boot_inv hboot
  | step _ hstep ih => exact step_keeps_inv ih hstep
  | stop _ ih => exact ih

/-! ### MemWrite -/

/-- Settles O10: by the laws of a write to canonical memory. -/
theorem memoryWriteReplacesOneWord : Obligations.MemoryWriteReplacesOneWord := by
  unfold Obligations.MemoryWriteReplacesOneWord
  exact ⟨fun _ _ _ => rfl, fun _ a v hm => ⟨Memory.write_wf hm a v, fun b => Memory.read_write hm a b v⟩⟩

/-! ### Canonical memories that read alike -/

@[simp] theorem Memory.lookup_cons_self (k : Nat) (w : Word) (rest : Memory) :
    Memory.lookup ((k, w) :: rest) k = w := if_pos rfl

theorem Memory.lookup_cons_of_ne {k a : Nat} (h : k ≠ a) (w : Word) (rest : Memory) :
    Memory.lookup ((k, w) :: rest) a = Memory.lookup rest a := if_neg h

/-- A listed cell is seen: no memory that lists only higher addresses reads alike there. -/
theorem Memory.lookup_cons_ne_of_wfFrom {k lo : Nat} {w : Word} {rest m : Memory} (hw : w ≠ Config.unlistedWord)
    (hm : Memory.wfFrom lo m = true) (hlo : k < lo) : Memory.lookup ((k, w) :: rest) k ≠ Memory.lookup m k := by
  rw [Memory.lookup_cons_self, Memory.lookup_of_lt hm hlo]
  exact hw

/-- Of two canonical memories that read alike, the second lists no first address above the first's. -/
theorem Memory.head_le_of_lookup_eq {k k' lo lo' : Nat} {w w' : Word} {rest rest' : Memory}
    (hm : Memory.wfFrom lo ((k, w) :: rest) = true) (hm' : Memory.wfFrom lo' ((k', w') :: rest') = true)
    (h : ∀ a < Config.memoryWords, Memory.lookup ((k, w) :: rest) a = Memory.lookup ((k', w') :: rest') a) :
    k' ≤ k := by
  obtain ⟨-, hk, hw, -⟩ := Memory.wfFrom_cons.mp hm
  obtain ⟨-, htail'⟩ := Memory.wfFrom_cons.mp hm'
  by_contra hlt
  have hfrom : Memory.wfFrom k' ((k', w') :: rest') = true := Memory.wfFrom_cons.mpr ⟨le_rfl, htail'⟩
  exact Memory.lookup_cons_ne_of_wfFrom hw hfrom (Nat.lt_of_not_le hlt) (h k hk)

/-- Behind a first cell at the same address, the rests of canonical memories read alike where the memories do. -/
theorem Memory.lookup_rest_eq {k a : Nat} {w w' : Word} {rest rest' : Memory}
    (hrest : Memory.wfFrom (k + 1) rest = true) (hrest' : Memory.wfFrom (k + 1) rest' = true)
    (h : Memory.lookup ((k, w) :: rest) a = Memory.lookup ((k, w') :: rest') a) :
    Memory.lookup rest a = Memory.lookup rest' a := by
  by_cases hak : k = a
  · subst hak
    rw [Memory.lookup_of_lt hrest (Nat.lt_succ_self k), Memory.lookup_of_lt hrest' (Nat.lt_succ_self k)]
  · rwa [Memory.lookup_cons_of_ne hak, Memory.lookup_cons_of_ne hak] at h

/-- Canonical memories that read alike are the same list: their first cells agree, and so do the rests. -/
theorem Memory.eq_of_lookup_eq {m m' : Memory} {lo lo' : Nat} (hm : Memory.wfFrom lo m = true)
    (hm' : Memory.wfFrom lo' m' = true) (h : ∀ a < Config.memoryWords, Memory.lookup m a = Memory.lookup m' a) :
    m = m' := by
  induction m generalizing m' lo lo' with
  | nil =>
    cases m' with
    | nil => rfl
    | cons c' rest' =>
      obtain ⟨k', w'⟩ := c'
      obtain ⟨-, hk', hw', -⟩ := Memory.wfFrom_cons.mp hm'
      exact absurd (h k' hk').symm (Memory.lookup_cons_ne_of_wfFrom (m := []) hw' rfl (Nat.lt_succ_self k'))
  | cons c rest ih =>
    obtain ⟨k, w⟩ := c
    obtain ⟨-, hk, hw, hrest⟩ := Memory.wfFrom_cons.mp hm
    cases m' with
    | nil => exact absurd (h k hk) (Memory.lookup_cons_ne_of_wfFrom (m := []) hw rfl (Nat.lt_succ_self k))
    | cons c' rest' =>
      obtain ⟨k', w'⟩ := c'
      obtain rfl : k = k' :=
        Nat.le_antisymm (Memory.head_le_of_lookup_eq hm' hm fun a ha => (h a ha).symm)
          (Memory.head_le_of_lookup_eq hm hm' h)
      obtain ⟨-, -, -, hrest'⟩ := Memory.wfFrom_cons.mp hm'
      have hword : w = w' := by simpa using h k hk
      rw [hword, ih hrest hrest' fun a ha => Memory.lookup_rest_eq hrest hrest' (h a ha)]

/-- An address below 65,536 is a word, and reads as its lookup (R40). -/
theorem Memory.read_ofNat (m : Memory) {a : Nat} (ha : a < Config.memoryWords) :
    Memory.read m (BitVec.ofNat 16 a) = Memory.lookup m a :=
  congrArg (Memory.lookup m) ((BitVec.toNat_ofNat a 16).trans (Nat.mod_eq_of_lt ha))

/-- Settles O11: two lists that look up alike below 65,536 are equal, and every such address is a word. -/
theorem canonicalMemoriesThatReadAlikeAreEqual : Obligations.CanonicalMemoriesThatReadAlikeAreEqual := by
  unfold Obligations.CanonicalMemoriesThatReadAlikeAreEqual
  intro m m' hm hm' h
  refine Memory.eq_of_lookup_eq hm hm' fun a ha => ?_
  rw [← Memory.read_ofNat m ha, ← Memory.read_ofNat m' ha, h]

/-! ### The memory frame -/

/-- An instruction that stores has no other effect (R163-R165). -/
theorem exec_eq_store {i : Instr} {s t : State} {a v : Word} (hs : storeOf s i = some (a, v))
    (h : exec i s = .next t) : t = s.store a v := by
  cases exec_effect h with
  | stored hs' =>
    cases hs'.symm.trans hs
    rfl
  | result _ _ _ hs' | jumps _ _ hs' | links _ _ _ hs' | outOfRange _ _ hs' => cases hs'.symm.trans hs
  | stays | hooks => cases hs
  | illegal hi => rcases hi with rfl | rfl <;> cases hs

/-- An instruction of the core that stores nothing leaves canonical memory as it was. -/
theorem exec_mem_of_storeOf_none {i : Instr} {s t : State} (hm : Memory.wf s.mem = true) (hcore : coreOnly i s)
    (hs : storeOf s i = none) (h : exec i s = .next t) : t.mem = s.mem := by
  cases exec_effect h with
  | stored hs' => cases hs'.symm.trans hs
  | hooks v => rw [hook_of_none (hcore ⟨v, rfl⟩), callHook_default hm, State.halt_mem]
  | result | stays | jumps | links | illegal | outOfRange => rfl

/-- Settles O38: what stores is `State.store`, which replaces one word; what stores nothing leaves memory. -/
theorem onlyTheStoredWordOfMemoryChanges : Obligations.OnlyTheStoredWordOfMemoryChanges := by
  unfold Obligations.OnlyTheStoredWordOfMemoryChanges
  intro i s t hm hcore h
  refine ⟨fun a v hs => ?_, fun hs => exec_mem_of_storeOf_none hm hcore hs h⟩
  rw [exec_eq_store hs h, State.store_mem]
  exact ⟨by rw [Memory.read_write hm, if_pos rfl], fun b hb => by rw [Memory.read_write hm, if_neg hb]⟩

/-! ### Stores into the instruction stream -/

/-- Settles O51: the step is the store itself, over the advanced state, and the next cycle decodes the word then read at
the PC. -/
theorem storeIsSeenByTheVeryNextFetch : Obligations.StoreIsSeenByTheVeryNextFetch := by
  unfold Obligations.StoreIsSeenByTheVeryNextFetch
  intro s t v hready hm hpc hs hstep
  have ht : t = s.advanced.store (s.pc + 1) v := exec_eq_store hs ((step_of_ready hready hpc).symm.trans hstep)
  have htpc : t.pc = s.pc + 1 := by rw [ht, State.store_pc, State.advanced_pc]
  have hread : Memory.read t.mem t.pc = v := by
    rw [htpc, ht, State.store_mem, State.advanced_mem, Memory.read_write hm, if_pos rfl]
  refine ⟨htpc, hread, fun hready' hpc' => ?_⟩
  rw [step_of_ready hready' hpc', hread]

end Sys2Proof.Machine

/-! PROOFS. Spec 30_encoding.md: the formats as lists of fields (R63), the opcode table (R64), the decoder and the
encoder against both (R65-R67, R69), the branch that does nothing (R68). -/

namespace Sys2Proof

/-! ### Fields of a word -/

/-- A field of a format (R63): where it stands in the word and the bits it holds there. -/
structure BitField where
  lo : Nat
  len : Nat
  bits : BitVec len
  fits : lo + len ≤ 16 := by decide

/-- The word has these bits at the field's place. -/
def BitField.In (f : BitField) (w : Word) : Prop := w.extractLsb' f.lo f.len = f.bits

/-- A 1 in each of the `len` bits from bit `lo` up. -/
def fieldMask (lo len : Nat) : Word := placeField (BitVec.allOnes len) lo

/-- The place of a field in the word. -/
def BitField.mask (f : BitField) : Word := fieldMask f.lo f.len

/-- A field's bits at their place, every other bit 0. -/
def BitField.value (f : BitField) : Word := placeField f.bits f.lo

/-- Under a field's mask a word keeps what stands at the field's place. -/
theorem BitField.and_mask (f : BitField) (w : Word) :
    w &&& f.mask = placeField (w.extractLsb' f.lo f.len) f.lo := by
  apply BitVec.eq_of_getLsbD_eq
  intro k hk
  rw [BitVec.getLsbD_and, BitField.mask, fieldMask, getLsbD_placeField, getLsbD_placeField, BitVec.getLsbD_allOnes,
    BitVec.getLsbD_extractLsb']
  by_cases hlo : k < f.lo
  · simp [hlo]
  · simp [hk, hlo, Nat.add_sub_cancel' (Nat.le_of_not_lt hlo), Bool.and_comm]

/-- A word has a field exactly when it keeps the field's value under the field's mask. -/
theorem BitField.in_iff (f : BitField) (w : Word) : f.In w ↔ w &&& f.mask = f.value := by
  rw [BitField.and_mask, BitField.value]
  constructor
  · intro h
    rw [h]
  · intro h
    have hfield := congrArg (fun x : Word => x.extractLsb' f.lo f.len) h
    rwa [field_placeField _ _ f.fits, field_placeField _ _ f.fits] at hfield

/-- The word has every one of these fields. -/
def HasFields (w : Word) (fs : List BitField) : Prop := ∀ f ∈ fs, f.In w

/-- The places of all the fields. -/
def maskOf (fs : List BitField) : Word := fs.foldr (fun f m => f.mask ||| m) 0

/-- The bits of all the fields, each at its place, every other bit 0. -/
def valueOf (fs : List BitField) : Word := fs.foldr (fun f v => f.value ||| v) 0

@[simp] theorem maskOf_nil : maskOf [] = 0 := rfl
@[simp] theorem maskOf_cons (f : BitField) (fs : List BitField) : maskOf (f :: fs) = f.mask ||| maskOf fs := rfl
@[simp] theorem valueOf_nil : valueOf [] = 0 := rfl
@[simp] theorem valueOf_cons (f : BitField) (fs : List BitField) : valueOf (f :: fs) = f.value ||| valueOf fs := rfl

@[simp] theorem hasFields_nil (w : Word) : HasFields w [] := List.forall_mem_nil _

@[simp] theorem hasFields_cons {w : Word} {f : BitField} {fs : List BitField} :
    HasFields w (f :: fs) ↔ w.extractLsb' f.lo f.len = f.bits ∧ HasFields w fs := List.forall_mem_cons

@[simp] theorem hasFields_append {w : Word} {fs gs : List BitField} :
    HasFields w (fs ++ gs) ↔ HasFields w fs ∧ HasFields w gs := List.forall_mem_append

/-- A word that has fields keeps their value under their mask. -/
theorem HasFields.and_maskOf {w : Word} {fs : List BitField} (h : HasFields w fs) : w &&& maskOf fs = valueOf fs := by
  induction fs with
  | nil => exact BitVec.and_zero
  | cons f fs ih =>
    obtain ⟨hf, hfs⟩ := List.forall_mem_cons.mp h
    rw [maskOf_cons, valueOf_cons, BitVec.and_or_distrib_left, (f.in_iff w).mp hf, ih hfs]

/-- Words that agree under two masks joined agree under each. -/
theorem and_eq_of_and_or_eq {x y a b : Word} (h : x &&& (a ||| b) = y &&& (a ||| b)) :
    x &&& a = y &&& a ∧ x &&& b = y &&& b := by
  have ha : (a ||| b) &&& a = a := by ext; simpa using Or.inl
  have hb : (a ||| b) &&& b = b := by ext; simpa using Or.inr
  constructor
  · rw [← ha, ← BitVec.and_assoc, h, BitVec.and_assoc]
  · rw [← hb, ← BitVec.and_assoc, h, BitVec.and_assoc]

/-- A word has the fields another has, where the two agree under the fields' mask. -/
theorem HasFields.of_and_eq {w w' : Word} {fs : List BitField} (h : HasFields w fs)
    (heq : w' &&& maskOf fs = w &&& maskOf fs) : HasFields w' fs := by
  induction fs with
  | nil => exact hasFields_nil w'
  | cons f fs ih =>
    obtain ⟨hf, hfs⟩ := List.forall_mem_cons.mp h
    obtain ⟨heqf, heqfs⟩ := and_eq_of_and_or_eq heq
    exact List.forall_mem_cons.mpr ⟨(f.in_iff w').mpr (heqf.trans ((f.in_iff w).mp hf)), ih hfs heqfs⟩

/-! ### The fields of an instruction's format -/

/-- The mode bits that tell apart the instructions of one opcode (R63, R64). -/
@[simp] def Instr.modeFields : Instr → List BitField
  | .addReg _ _ _ | .andReg _ _ _ => [.mk 5 1 0]
  | .addImm _ _ _ | .andImm _ _ _ => [.mk 5 1 1]
  | .lshf _ _ _ => [.mk 4 2 0b00]
  | .rshfl _ _ _ => [.mk 4 2 0b01]
  | .rshfa _ _ _ => [.mk 4 2 0b11]
  | .shfMode10 => [.mk 4 2 0b10]
  | .jsr _ => [.mk 11 1 1]
  | .jsrr _ => [.mk 11 1 0]
  | _ => []

/-- The fields that hold the operands (R63, R65). -/
@[simp] def Instr.operandFields : Instr → List BitField
  | .addReg dr sr1 sr2 | .andReg dr sr1 sr2 => [.mk 9 3 dr.toBits, .mk 6 3 sr1.toBits, .mk 0 3 sr2.toBits]
  | .addImm dr sr1 imm5 | .andImm dr sr1 imm5 => [.mk 9 3 dr.toBits, .mk 6 3 sr1.toBits, .mk 0 5 imm5]
  | .not dr sr => [.mk 9 3 dr.toBits, .mk 6 3 sr.toBits]
  | .lshf dr sr a | .rshfl dr sr a | .rshfa dr sr a =>
    [.mk 9 3 dr.toBits, .mk 6 3 sr.toBits, .mk 0 4 (BitVec.ofNat 4 a)]
  | .br n z p off => [.mk 11 1 (condBit n), .mk 10 1 (condBit z), .mk 9 1 (condBit p), .mk 0 9 off]
  | .jmp baseR | .jsrr baseR => [.mk 6 3 baseR.toBits]
  | .jsr off => [.mk 0 11 off]
  | .ld r off | .ldi r off | .st r off | .sti r off | .lea r off => [.mk 9 3 r.toBits, .mk 0 9 off]
  | .ldr r baseR off | .str r baseR off => [.mk 9 3 r.toBits, .mk 6 3 baseR.toBits, .mk 0 6 off]
  | .trap v => [.mk 0 8 v]
  | .shfMode10 | .invalid => []

/-- The fields by which an instruction is known: its opcode and its mode (R61, R64). -/
def Instr.selector (i : Instr) : List BitField := .mk 12 4 i.opcode :: i.modeFields

/-- Every field of an instruction's format. -/
def Instr.fields (i : Instr) : List BitField := i.selector ++ i.operandFields

/-- What a format does not ignore is the places of its fields (R63, R66). -/
theorem not_ignoredBits (i : Instr) : ~~~ i.ignoredBits = maskOf i.fields := by
  cases i <;> simp only [Instr.fields, Instr.selector, Instr.modeFields, Instr.operandFields, List.cons_append,
    List.nil_append, maskOf_cons, maskOf_nil, BitField.mask, Instr.ignoredBits] <;> decide

/-- The encoder puts every field of the format at its place (R63); no other part of the word reaches there. -/
theorem encode_hasFields (i : Instr) : HasFields (encode i) i.fields := by
  cases i <;> simp [Instr.fields, Instr.selector, Instr.opcode, encode, field_or, field_placeField,
    field_placeField_above, field_placeField_below]

/-! ### Operands as fields -/

@[simp] theorem toBits_regField (w : Word) (lo : Nat) : (regField w lo).toBits = w.extractLsb' lo 3 :=
  Reg.toBits_ofBits _

/-- A register is read from the field that holds its index (R62). -/
theorem regField_eq_iff {w : Word} {lo : Nat} {r : Reg} : regField w lo = r ↔ w.extractLsb' lo 3 = r.toBits := by
  rw [← toBits_regField]
  exact ⟨congrArg Reg.toBits, fun h => by rw [← Reg.ofBits_toBits (regField w lo), h, Reg.ofBits_toBits]⟩

@[simp] theorem condBit_false : condBit false = 0#1 := rfl
@[simp] theorem condBit_true : condBit true = 1#1 := rfl

/-- A one-bit field holds its bit. -/
theorem field_eq_condBit_iff {w : Word} {lo : Nat} {b : Bool} : w.extractLsb' lo 1 = condBit b ↔ bitAt w lo = b := by
  rw [field_eq_iff, condBit]
  simp [BitVec.getLsbD_ofBool]

/-- A field that lies within a field of zeros is zero. -/
theorem field_within_zero {w : Word} {lo len lo' len' : Nat} (h : w.extractLsb' lo len = 0#len) (hlo : lo ≤ lo')
    (hhi : lo' + len' ≤ lo + len) : w.extractLsb' lo' len' = 0#len' := by
  rw [field_eq_iff]
  intro k hk
  have hbit := bit_of_field h (lo' - lo + k) (by omega)
  simpa only [← Nat.add_assoc, Nat.add_sub_cancel' hlo, BitVec.getLsbD_zero] using hbit

/-- A two-bit field holds its bits, the upper first. -/
theorem field_two (w : Word) (lo : Nat) :
    w.extractLsb' lo 2 = condBit (bitAt w (lo + 1)) ++ condBit (bitAt w lo) := by
  rw [← field_eq_condBit_iff.mpr rfl, ← field_eq_condBit_iff.mpr rfl,
    BitVec.extractLsb'_append_extractLsb'_eq_extractLsb' rfl]

/-- A field of four bits holds an amount below 16 (R65). -/
theorem amountOk_field (w : Word) (lo : Nat) : amountOk (extractField w lo 4).toNat = true :=
  decide_eq_true (BitVec.isLt _)

/-- A shift amount below 16 is read from the field that holds it (R65). -/
theorem amount_of_field {w : Word} {lo a : Nat} (ha : amountOk a = true)
    (h : w.extractLsb' lo 4 = BitVec.ofNat 4 a) : (extractField w lo 4).toNat = a := by
  rw [extractField, h, BitVec.toNat_ofNat, Nat.mod_eq_of_lt (of_decide_eq_true ha)]

/-! ### What the decoder reads -/

theorem decodeShf_hasFields (w : Word) : HasFields w ((decodeShf w).modeFields ++ (decodeShf w).operandFields) := by
  unfold decodeShf
  split
  all_goals
    rename_i h5 h4
    simp [field_two w 4, h5, h4, -BitVec.getLsbD_eq_getElem, -BitVec.extractLsb'_toNat]

/-- A word has every field of the instruction it decodes to: what the decoder names stands in the word. -/
theorem decode_hasFields (w : Word) : HasFields w (decode w).fields := by
  rw [Instr.fields, Instr.selector, List.cons_append, hasFields_cons]
  refine ⟨(decode_opcode w).symm, ?_⟩
  unfold decode
  split
  case h_1 => simp [field_eq_condBit_iff]
  case h_2 | h_6 => cases hm : bitAt w 5 <;> simp [field_eq_condBit_iff.mpr hm]
  case h_5 => cases hm : bitAt w 11 <;> simp [field_eq_condBit_iff.mpr hm]
  case h_14 => exact decodeShf_hasFields w
  all_goals simp

/-- SHF takes its amount from a field of four bits (R65). -/
theorem decodeShf_wf (w : Word) : (decodeShf w).wf = true := by
  unfold decodeShf
  split
  case h_3 => rfl
  all_goals exact amountOk_field w 0

/-- What the decoder reads is well-formed: the one range to check is that of SHF. -/
theorem decode_wf (w : Word) : (decode w).wf = true := by
  unfold decode
  split
  case h_2 | h_6 => cases bitAt w 5 <;> rfl
  case h_5 => cases bitAt w 11 <;> rfl
  case h_14 => exact decodeShf_wf w
  all_goals rfl

/-! ### The rows of the opcode table -/

/-- The number of an instruction's row. -/
def Instr.rowNumber : Instr → Fin 22
  | .addReg _ _ _ => 0
  | .addImm _ _ _ => 1
  | .andReg _ _ _ => 2
  | .andImm _ _ _ => 3
  | .not _ _ => 4
  | .lshf _ _ _ => 5
  | .rshfl _ _ _ => 6
  | .rshfa _ _ _ => 7
  | .shfMode10 => 8
  | .br _ _ _ _ => 9
  | .jmp _ => 10
  | .jsr _ => 11
  | .jsrr _ => 12
  | .ld _ _ => 13
  | .ldi _ _ => 14
  | .ldr _ _ _ => 15
  | .st _ _ => 16
  | .sti _ _ => 17
  | .str _ _ _ => 18
  | .lea _ _ => 19
  | .trap _ => 20
  | .invalid => 21

/-- The row of the opcode table that stands for an instruction. -/
def Instr.row (i : Instr) : TableRow := opcodeTable.get i.rowNumber

theorem row_mem (i : Instr) : i.row ∈ opcodeTable := List.get_mem _ _

/-- A row's mask is the places of the opcode and the mode. -/
theorem row_mask (i : Instr) : i.row.mask = maskOf i.selector := by
  cases i <;> simp only [Instr.selector, BitField.mask, Instr.modeFields, maskOf_cons, maskOf_nil, Instr.row,
    Instr.rowNumber] <;> decide

/-- A row's value is the opcode and the mode at their places. -/
theorem row_value (i : Instr) : i.row.value = valueOf i.selector := by
  cases i <;> simp only [Instr.selector, BitField.value, Instr.modeFields, Instr.opcode, valueOf_cons, valueOf_nil,
    Instr.row, Instr.rowNumber] <;> decide

/-- A row builds its instruction from a word with the instruction's operands. -/
theorem row_build {i : Instr} {w : Word} (hwf : i.wf = true) (h : HasFields w i.operandFields) :
    i.row.build w = i := by
  cases i with
  | lshf dr sr a | rshfl dr sr a | rshfa dr sr a =>
    simp only [Instr.operandFields, hasFields_cons] at h
    obtain ⟨hdr, hsr, ha, -⟩ := h
    simp [Instr.row, Instr.rowNumber, opcodeTable, regField_eq_iff, hdr, hsr, amount_of_field hwf ha,
      -BitVec.extractLsb'_toNat]
  | _ => simp_all [Instr.row, Instr.rowNumber, opcodeTable, regField_eq_iff, field_eq_condBit_iff]

/-- A word that has an instruction's opcode and mode belongs to its row. -/
theorem row_covers {i : Instr} {w : Word} (h : HasFields w i.selector) : i.row.covers w = true := by
  rw [TableRow.covers, beq_iff_eq, row_mask, row_value, h.and_maskOf]

/-- Some bit that both rows fix tells them apart. -/
abbrev TableRow.Conflicts (r r' : TableRow) : Prop := r.value &&& r'.mask ≠ r'.value &&& r.mask

/-- A word belongs to one of two conflicting rows at most. -/
theorem not_covers_of_conflicts {r r' : TableRow} {w : Word} (hc : r.Conflicts r') (h : r.covers w = true) :
    ¬ r'.covers w = true := by
  intro h'
  rw [TableRow.covers, beq_iff_eq] at h h'
  apply hc
  rw [← h, ← h', BitVec.and_assoc, BitVec.and_assoc, BitVec.and_comm r.mask]

/-- Among rows of which any two conflict, one that covers a word is the only one that does. -/
theorem filter_covers_eq_singleton {rows : List TableRow} {r : TableRow} {w : Word}
    (hrows : rows.Pairwise TableRow.Conflicts) (hr : r ∈ rows) (h : r.covers w = true) :
    (rows.filter fun row => row.covers w) = [r] := by
  induction rows with
  | nil => cases hr
  | cons a rest ih =>
    obtain ⟨ha, hrest⟩ := List.pairwise_cons.mp hrows
    rw [List.filter_cons]
    rcases List.mem_cons.mp hr with rfl | hr
    · have hnil := List.filter_eq_nil_iff.mpr fun b hb => not_covers_of_conflicts (ha b hb) h
      rw [if_pos h, hnil]
    · rw [if_neg fun hcov => not_covers_of_conflicts (ha r hr) hcov h, ih hrest hr]

/-- No two rows of the opcode table share a word (R64). -/
theorem opcodeTable_conflicts : opcodeTable.Pairwise TableRow.Conflicts := by
  decide

/-- One row alone covers a word with the opcode and mode of `i`: the row of `i`. -/
theorem rows_covering {i : Instr} {w : Word} (h : HasFields w i.selector) :
    (opcodeTable.filter fun row => row.covers w) = [i.row] :=
  filter_covers_eq_singleton opcodeTable_conflicts (row_mem i) (row_covers h)

/-- A word that has the fields of a well-formed instruction decodes to it: the word's one row builds both. -/
theorem decode_eq_of_hasFields {i : Instr} {w : Word} (hwf : i.wf = true) (h : HasFields w i.fields) :
    decode w = i := by
  obtain ⟨hsel, hops⟩ := hasFields_append.mp h
  obtain ⟨hsel', hops'⟩ := hasFields_append.mp (decode_hasFields w)
  have hrow : (decode w).row = i.row := List.singleton_inj.mp ((rows_covering hsel').symm.trans (rows_covering hsel))
  rw [← row_build (decode_wf w) hops', hrow, row_build hwf hops]

/-- The decoder by its formats: a word decodes to the well-formed instruction whose fields it has, and to no other. -/
theorem decode_eq_iff {i : Instr} {w : Word} (hwf : i.wf = true) : decode w = i ↔ HasFields w i.fields :=
  ⟨fun h => h ▸ decode_hasFields w, decode_eq_of_hasFields hwf⟩

/-- A word without opcode and condition bits is a branch without conditions (R68). -/
theorem decode_of_upper_zero {w : Word} (h : w.extractLsb' 9 7 = 0#7) :
    decode w = .br false false false (w.extractLsb' 0 9) := by
  have hop : w.extractLsb' 12 4 = 0#4 := field_within_zero h (by decide) (by decide)
  have hn : w.extractLsb' 11 1 = 0#1 := field_within_zero h (by decide) (by decide)
  have hz : w.extractLsb' 10 1 = 0#1 := field_within_zero h (by decide) (by decide)
  have hp : w.extractLsb' 9 1 = 0#1 := field_within_zero h (by decide) (by decide)
  exact decode_eq_of_hasFields rfl (by simp [Instr.fields, Instr.selector, Instr.opcode, hop, hn, hz, hp])

/-! ### The statements -/

/-- Settles O1: the encoder's word has the instruction's fields, and a word decodes to the instruction whose fields it
has. -/
theorem decodeInvertsEncode : Obligations.DecodeInvertsEncode := by
  unfold Obligations.DecodeInvertsEncode
  exact fun i hwf => decode_eq_of_hasFields hwf (encode_hasFields i)

/-- Changing bits outside a mask changes nothing under it. -/
theorem xor_and_and_not (w m a : Word) : (w ^^^ (m &&& a)) &&& ~~~a = w &&& ~~~a := by
  ext k
  cases h : a[k] <;> simp [h]

/-- Settles O2: the word and its re-encoding have the same fields, and a word that differs in ignored bits alone has
them too. -/
theorem decodeReadsExactlyTheUsedBits : Obligations.DecodeReadsExactlyTheUsedBits := by
  unfold Obligations.DecodeReadsExactlyTheUsedBits
  intro w
  have hw := decode_hasFields w
  constructor
  · rw [not_ignoredBits, (encode_hasFields _).and_maskOf, hw.and_maskOf]
  · intro m
    have hsame := xor_and_and_not w m (decode w).ignoredBits
    rw [not_ignoredBits] at hsame
    exact decode_eq_of_hasFields (decode_wf w) (hw.of_and_eq hsame)

/-- Settles O3: the row of the decoded instruction covers the word, and rows that conflict with it do not. -/
theorem everyWordIsDecodedByItsOneTableRow : Obligations.EveryWordIsDecodedByItsOneTableRow := by
  unfold Obligations.EveryWordIsDecodedByItsOneTableRow
  refine ⟨rfl, fun w => ?_⟩
  obtain ⟨hsel, hops⟩ := hasFields_append.mp (decode_hasFields w)
  refine ⟨(decode w).row, row_mem _, row_covers hsel, (row_build (decode_wf w) hops).symm, ?_⟩
  rw [rows_covering hsel, List.length_singleton]

/-- Settles O4: by the cases of the decoder. -/
theorem decodedInstructionsAreWellFormed : Obligations.DecodedInstructionsAreWellFormed := by
  unfold Obligations.DecodedInstructionsAreWellFormed
  exact decode_wf

/-- Settles O5: each illegal encoding is known by its fields, which are opcode and mode alone. -/
theorem illegalEncodingsAreExactlyThese : Obligations.IllegalEncodingsAreExactlyThese := by
  unfold Obligations.IllegalEncodingsAreExactlyThese
  intro w
  rw [decode_eq_iff rfl, decode_eq_iff rfl]
  simp [Instr.fields, Instr.selector, Instr.opcode]

/-- Settles O6: by evaluation, on twelve fixed words. -/
theorem exampleWordsDecode : Obligations.ExampleWordsDecode := by
  unfold Obligations.ExampleWordsDecode
  decide

end Sys2Proof

namespace Sys2Proof.Machine

/-- No CC matches where no condition is asserted (R140). -/
theorem matchesBits_none (cc : CC) : cc.matchesBits false false false = false := by
  cases cc <;> rfl

/-- A branch none of whose asserted conditions holds has no effect (R140). -/
theorem exec_br_of_not_matches {n z p : Bool} {off : BitVec 9} {s : State} (h : s.cc.matchesBits n z p = false) :
    exec (.br n z p off) s = .next s := by
  rw [exec, execBr, h, if_neg Bool.false_ne_true]

/-- Settles O50: the word is a branch without conditions, which leaves the advanced state. -/
theorem branchWithoutConditionsIsANoOp : Obligations.BranchWithoutConditionsIsANoOp := by
  unfold Obligations.BranchWithoutConditionsIsANoOp
  intro s hready hpc hzero
  rw [step_of_ready hready hpc, decode_of_upper_zero hzero, exec_br_of_not_matches (matchesBits_none _)]
  rfl

end Sys2Proof.Machine

/-! PROOFS. Spec 40_dispatch.md: the cycle (R101-R105), how a handler ends (R106), the reserved opcode (R107), Halted
(R108), the precision of faults (R110). -/

namespace Sys2Proof.Machine

/-! ### How a handler ends -/

/-- A hook's call leaves a Running machine Running, or halts it with TrapHalt (R106, R190). -/
theorem callHook_run_cases {s : State} (hrun : s.run = .running) (hook : TrapHook) (v : BitVec 8) :
    (s.callHook hook v).run = .running ∨ (s.callHook hook v).run = .halted .trapHalt := by
  rw [callHook_run, hrun]
  split
  case isTrue => exact .inr rfl
  case isFalse => exact .inl rfl

/-- Settles O46: by the shapes `exec_effect` lists: the two that raise are no TRAP's, and only a hook's call can halt
otherwise. -/
theorem handlersContinueHaltByTrapOrFault : Obligations.HandlersContinueHaltByTrapOrFault := by
  unfold Obligations.HandlersContinueHaltByTrapOrFault
  intro i s t hrun h
  cases exec_effect h with
  | result | stored | stays | jumps | links => exact .inl hrun
  | illegal hi => exact .inr (.inr ⟨⟨_, rfl⟩, by rcases hi with rfl | rfl <;> simp⟩)
  | outOfRange _ _ _ ht => exact .inr (.inr ⟨⟨_, rfl⟩, ht⟩)
  | hooks v => exact (callHook_run_cases hrun s.hook v).imp_right fun hhalt => .inl ⟨hhalt, v, rfl⟩

/-- An instruction that halts with a fault changes the run state alone (R110, R205, D12). -/
theorem exec_fault_frame {i : Instr} {s t : State} {f : FaultValue} (hrun : s.run = .running)
    (h : exec i s = .next t) (hfault : t.run = .halted (.fault f)) : t = { s with run := t.run } := by
  cases exec_effect h with
  | result | stored | stays | jumps | links => cases hrun.symm.trans hfault
  | illegal | outOfRange => rfl
  | hooks v => rcases callHook_run_cases hrun s.hook v with hr | hr <;> cases hr.symm.trans hfault

/-- The reserved opcode takes InvalidOpcode(8) at its own address (R107, R201). -/
theorem exec_invalid (s : State) :
    exec .invalid s = .next { s with run := .halted (.fault (.invalidOpcode 8 (s.pc - 1))) } :=
  congrArg Host.Outcome.next (State.raise_eq s .invalid .invalidOpcode)

/-- Settles O34: the words by the characterisation of the illegal encodings, the effect by `exec_invalid`. -/
theorem reservedOpcodeHaltsWithInvalidOpcode : Obligations.ReservedOpcodeHaltsWithInvalidOpcode := by
  unfold Obligations.ReservedOpcodeHaltsWithInvalidOpcode
  refine ⟨fun w hop => ?_, exec_invalid⟩
  obtain ⟨hinvalid, -⟩ := illegalEncodingsAreExactlyThese w
  exact hinvalid.mpr hop

/-! ### The cycle -/

/-- Settles O41: `step_of_ready`, with the advanced state written out. -/
theorem stepRunsTheDecodedInstruction : Obligations.StepRunsTheDecodedInstruction := by
  unfold Obligations.StepRunsTheDecodedInstruction
  exact fun s => step_of_ready

/-- A reached cycle limit halts a Running machine that has no stop request (R101, R208). -/
theorem step_of_limit_reached {s : State} {limit : Nat} (hrun : s.run = .running) (hstop : s.stopRequested = false)
    (hlimit : s.cycleLimit = some limit) (hle : limit ≤ s.cycles) : step s = .next (s.halt .cycleLimit) := by
  have hnot : ¬ s.Ready := fun ⟨_, _, hlt⟩ => Nat.not_lt_of_le hle (hlt limit hlimit)
  rcases step_cases hrun with ⟨hyes, -⟩ | ⟨-, -, h⟩ | ⟨hready, -⟩ | ⟨hready, -⟩
  · cases hyes.symm.trans hstop
  · exact h
  · exact absurd hready hnot
  · exact absurd hready hnot

/-- Settles O42: `step_of_limit_reached`, with the halt written out. -/
theorem cycleLimitHaltsBeforeTheNextCycle : Obligations.CycleLimitHaltsBeforeTheNextCycle := by
  unfold Obligations.CycleLimitHaltsBeforeTheNextCycle
  exact fun s limit => step_of_limit_reached

/-- From the top address the advance faults, its cycle counted (R103, D7). -/
theorem step_at_top {s : State} (hready : s.Ready) (hpc : s.pc = 0xFFFF) :
    step s = .next (s.countCycle.takeFault (.addressOutOfRange 65536)
      ((Memory.read s.mem s.pc).extractLsb' 12 4) s.pc) := by
  obtain ⟨hrun, hstop, hlt⟩ := hready
  rcases step_cases hrun with ⟨hyes, -⟩ | ⟨-, ⟨limit, hlimit, hle⟩, -⟩ | ⟨-, -, h⟩ | ⟨-, hne, -⟩
  · cases hyes.symm.trans hstop
  · exact absurd (hlt limit hlimit) (Nat.not_lt_of_le hle)
  · exact h
  · exact absurd hpc hne

/-- Settles O43: `step_at_top`, with the fault and the address written out. -/
theorem advanceFromTheTopAddressFaults : Obligations.AdvanceFromTheTopAddressFaults := by
  unfold Obligations.AdvanceFromTheTopAddressFaults
  intro s hready hpc
  rw [step_at_top hready hpc, hpc]
  rfl

/-- A Running machine has a next state, in which at most one more cycle has begun (R101, R211). -/
theorem step_completes {s : State} (hrun : s.run = .running) :
    ∃ t : State, step s = .next t ∧ (t.cycles = s.cycles ∨ t.cycles = s.cycles + 1) := by
  rcases step_cases hrun with ⟨-, h⟩ | ⟨-, -, h⟩ | ⟨-, -, h⟩ | ⟨-, -, h⟩
  · exact ⟨_, h, .inl rfl⟩
  · exact ⟨_, h, .inl rfl⟩
  · exact ⟨_, h, .inr rfl⟩
  · obtain ⟨t, ht⟩ := exec_next (decode (Memory.read s.mem s.pc)) s.advanced
    obtain ⟨hcycles, -⟩ := exec_host_frame ht
    exact ⟨t, h.trans ht, .inr hcycles⟩

/-- Settles O45: `exec_next` and `step_completes`. -/
theorem everyInstructionAndEveryRunningStepCompletes : Obligations.EveryInstructionAndEveryRunningStepCompletes := by
  unfold Obligations.EveryInstructionAndEveryRunningStepCompletes
  exact ⟨exec_next, fun s => step_completes⟩

/-- Settles O49: of the four things a step can do, the host halts are no faults, and the advance and the instruction
each change the run state alone. -/
theorem faultingCycleCommitsNothing : Obligations.FaultingCycleCommitsNothing := by
  unfold Obligations.FaultingCycleCommitsNothing
  intro s t f hrun hstep hfault
  rcases step_cases hrun with ⟨-, h⟩ | ⟨-, -, h⟩ | ⟨-, hpc, h⟩ | ⟨-, hpc, h⟩
  · cases h.symm.trans hstep
    cases hfault
  · cases h.symm.trans hstep
    cases hfault
  · cases h.symm.trans hstep
    rw [if_pos hpc, ← hpc]
    rfl
  · rw [if_neg hpc]
    exact exec_fault_frame (s := s.advanced) hrun (h.symm.trans hstep) hfault

/-! ### Halted -/

/-- A run of one or more steps stops with the fault of its first step. -/
theorem run_succ_of_fault {M : Host.Core} {s : M.State} {e : M.Fault} (k : Nat) (h : M.step s = .fault e) :
    M.run (k + 1) s = .fault e := by
  rw [Host.Core.run, h]

/-- Settles O44: a step from Halted answers `halted`, and so does every run that begins with it. -/
theorem haltedIsTerminal : Obligations.HaltedIsTerminal := by
  unfold Obligations.HaltedIsTerminal
  intro s r hhalt
  have hstep : step s = .fault .halted := step_of_halted hhalt
  refine ⟨fun t h => ?_, fun k t h => ?_⟩
  · cases hstep.symm.trans h
  · cases (run_succ_of_fault (M := core) k hstep).symm.trans h

end Sys2Proof.Machine

/-! PROOFS. Spec 41_operate.md: ADD, AND, NOT and the shifts (R120-R127, R129, R130), the reserved shift mode (R128). -/

namespace Sys2Proof

/-! ### Which words are an operate instruction -/

theorem hasFields_singleton {w : Word} {f : BitField} : HasFields w [f] ↔ w.extractLsb' f.lo f.len = f.bits :=
  List.forall_mem_singleton

/-- A word decodes to the instruction whose opcode, mode and operands stand in it (R61-R65). -/
theorem decode_eq_of_opcode_mode {i : Instr} {w : Word} (hwf : i.wf = true) (hop : w.extractLsb' 12 4 = i.opcode)
    (hmode : HasFields w i.modeFields) (hoperands : HasFields w i.operandFields) : decode w = i :=
  decode_eq_of_hasFields hwf (hasFields_append.mpr ⟨hasFields_cons.mpr ⟨hop, hmode⟩, hoperands⟩)

/-- The operands of a register-mode ADD or AND stand where they are read. -/
theorem hasFields_threeRegs (w : Word) : HasFields w
    [.mk 9 3 (regField w 9).toBits, .mk 6 3 (regField w 6).toBits, .mk 0 3 (regField w 0).toBits] := by
  simp

/-- The operands of an immediate-mode ADD or AND stand where they are read. -/
theorem hasFields_twoRegs_imm5 (w : Word) : HasFields w
    [.mk 9 3 (regField w 9).toBits, .mk 6 3 (regField w 6).toBits, .mk 0 5 (w.extractLsb' 0 5)] := by
  simp

/-- The operands of a shift stand where they are read. -/
theorem hasFields_twoRegs_amount (w : Word) : HasFields w
    [.mk 9 3 (regField w 9).toBits, .mk 6 3 (regField w 6).toBits,
      .mk 0 4 (BitVec.ofNat 4 (w.extractLsb' 0 4).toNat)] := by
  simp [-BitVec.extractLsb'_toNat]

end Sys2Proof

namespace Sys2Proof.Machine

/-! ### The words the operations compute -/

/-- Adding a sign-extended field adds its signed value modulo 2^16 (R6, R129). -/
theorem toNat_add_sext {n : Nat} (h : n ≤ 16) (a : Word) (f : BitVec n) :
    ((a + sext f).toNat : Int) = (a.toNat + f.toInt) % 65536 := by
  have hsext : f.toInt % 65536 = (sext f).toNat % 65536 := by
    rw [← sext_toInt h f, BitVec.toInt_eq_toNat_bmod]
    exact Int.bmod_emod
  rw [BitVec.toNat_add, Int.natCast_mod, Int.natCast_add]
  exact (Int.add_emod_eq_add_emod_left a.toNat hsext).symm

/-- The bits of a sign-extended field: its own, and its top bit in every place above (R6). -/
theorem getLsbD_sext_min {n k : Nat} (f : BitVec n) (hn : 0 < n) (hk : k < 16) :
    (sext f).getLsbD k = f.getLsbD (min k (n - 1)) := by
  rw [getLsbD_sext f hk]
  split
  case isTrue h => rw [Nat.min_eq_left (Nat.le_sub_one_of_lt h)]
  case isFalse h => rw [BitVec.msb_eq_getLsbD_last, Nat.min_eq_right (by omega)]

/-- An arithmetic right shift is the floor of the signed value over the power of two (R127). -/
theorem toInt_sshiftRight_eq_fdiv (a : Word) (amount : Nat) :
    (a.sshiftRight amount).toInt = Int.fdiv a.toInt (2 ^ amount) := by
  rw [BitVec.toInt_sshiftRight, Int.shiftRight_eq_div_pow, Int.fdiv_eq_ediv_of_nonneg _ (Int.pow_nonneg (by decide))]
  norm_cast

/-! ### The statements -/

/-- Settles O12: the sum's unsigned value fixes the word written. -/
theorem addRegisterModeAddsModulo : Obligations.AddRegisterModeAddsModulo := by
  unfold Obligations.AddRegisterModeAddsModulo
  refine ⟨fun w hop hmode => ?_, fun dr sr1 sr2 s v hv => ?_⟩
  · exact decode_eq_of_opcode_mode rfl hop (hasFields_singleton.mpr hmode) (hasFields_threeRegs w)
  · have hword : v = s.regs.get sr1 + s.regs.get sr2 :=
      BitVec.eq_of_toNat_eq (hv.trans (BitVec.toNat_add _ _).symm)
    subst hword
    rfl

/-- Settles O13: the sum's unsigned value fixes the word written; `toNat_add_sext` gives it the immediate's signed
value. -/
theorem addImmediateModeAddsModulo : Obligations.AddImmediateModeAddsModulo := by
  unfold Obligations.AddImmediateModeAddsModulo
  refine ⟨fun w hop hmode => ?_, fun dr sr1 imm5 s v hv => ?_⟩
  · exact decode_eq_of_opcode_mode rfl hop (hasFields_singleton.mpr hmode) (hasFields_twoRegs_imm5 w)
  · have hword : v = s.regs.get sr1 + sext imm5 :=
      BitVec.eq_of_toNat_eq (Int.ofNat.inj (hv.trans (toNat_add_sext (by decide) _ imm5).symm))
    subst hword
    rfl

/-- Settles O14: the bits fix the word written. -/
theorem andRegisterModeAndsEachBit : Obligations.AndRegisterModeAndsEachBit := by
  unfold Obligations.AndRegisterModeAndsEachBit
  refine ⟨fun w hop hmode => ?_, fun dr sr1 sr2 s v hv => ?_⟩
  · exact decode_eq_of_opcode_mode rfl hop (hasFields_singleton.mpr hmode) (hasFields_threeRegs w)
  · have hword : v = s.regs.get sr1 &&& s.regs.get sr2 := by
      apply BitVec.eq_of_getLsbD_eq
      intro k hk
      rw [hv k hk, BitVec.getLsbD_and]
    subst hword
    rfl

/-- Settles O15: the bits fix the word written; those of the mask above bit 4 are the immediate's bit 4. -/
theorem andImmediateModeAndsEachBit : Obligations.AndImmediateModeAndsEachBit := by
  unfold Obligations.AndImmediateModeAndsEachBit
  refine ⟨fun w hop hmode => ?_, fun dr sr1 imm5 s v hv => ?_⟩
  · exact decode_eq_of_opcode_mode rfl hop (hasFields_singleton.mpr hmode) (hasFields_twoRegs_imm5 w)
  · have hword : v = s.regs.get sr1 &&& sext imm5 := by
      apply BitVec.eq_of_getLsbD_eq
      intro k hk
      rw [hv k hk, BitVec.getLsbD_and, getLsbD_sext_min imm5 (by decide) hk]
    subst hword
    rfl

/-- Settles O16: the bits fix the word written. -/
theorem notComplementsEachBit : Obligations.NotComplementsEachBit := by
  unfold Obligations.NotComplementsEachBit
  refine ⟨fun w hop => ?_, fun dr sr s v hv => ?_⟩
  · exact decode_eq_of_opcode_mode rfl hop (hasFields_nil w) (by simp)
  · have hword : v = ~~~ s.regs.get sr := by
      apply BitVec.eq_of_getLsbD_eq
      intro k hk
      rw [hv k hk, BitVec.getLsbD_not, decide_eq_true hk, Bool.true_and]
    subst hword
    rfl

/-- Settles O17: the product's unsigned value fixes the word written. -/
theorem lshfShiftsLeft : Obligations.LshfShiftsLeft := by
  unfold Obligations.LshfShiftsLeft
  refine ⟨fun w hop hmode => ?_, fun dr sr amount s v _ hv => ?_⟩
  · exact decode_eq_of_opcode_mode (amountOk_field w 0) hop (hasFields_singleton.mpr hmode)
      (hasFields_twoRegs_amount w)
  · have hword : v = s.regs.get sr <<< amount :=
      BitVec.eq_of_toNat_eq (by rw [hv, BitVec.toNat_shiftLeft, Nat.shiftLeft_eq])
    subst hword
    rfl

/-- Settles O18: the quotient's unsigned value fixes the word written. -/
theorem rshflShiftsRightWithZeros : Obligations.RshflShiftsRightWithZeros := by
  unfold Obligations.RshflShiftsRightWithZeros
  refine ⟨fun w hop hmode => ?_, fun dr sr amount s v _ hv => ?_⟩
  · exact decode_eq_of_opcode_mode (amountOk_field w 0) hop (hasFields_singleton.mpr hmode)
      (hasFields_twoRegs_amount w)
  · have hword : v = s.regs.get sr >>> amount :=
      BitVec.eq_of_toNat_eq (by rw [hv, BitVec.toNat_ushiftRight, Nat.shiftRight_eq_div_pow])
    subst hword
    rfl

/-- Settles O19: the quotient's signed value fixes the word written; `toInt_sshiftRight_eq_fdiv` rounds it down. -/
theorem rshfaShiftsRightWithSign : Obligations.RshfaShiftsRightWithSign := by
  unfold Obligations.RshfaShiftsRightWithSign
  refine ⟨fun w hop hmode => ?_, fun dr sr amount s v _ hv => ?_⟩
  · exact decode_eq_of_opcode_mode (amountOk_field w 0) hop (hasFields_singleton.mpr hmode)
      (hasFields_twoRegs_amount w)
  · have hword : v = (s.regs.get sr).sshiftRight amount :=
      BitVec.eq_of_toInt_eq (hv.trans (toInt_sshiftRight_eq_fdiv _ amount).symm)
    subst hword
    rfl

/-- The reserved shift mode takes InvalidOpcode(13) at its own address (R128, R201). -/
theorem exec_shfMode10 (s : State) :
    exec .shfMode10 s = .next { s with run := .halted (.fault (.invalidOpcode 13 (s.pc - 1))) } :=
  congrArg Host.Outcome.next (State.raise_eq s .shfMode10 .invalidOpcode)

/-- Settles O20: the words by the characterisation of the illegal encodings, the effect by `exec_shfMode10`. -/
theorem shfModeTenHaltsWithInvalidOpcode : Obligations.ShfModeTenHaltsWithInvalidOpcode := by
  unfold Obligations.ShfModeTenHaltsWithInvalidOpcode
  refine ⟨fun w hop hmode => ?_, exec_shfMode10⟩
  obtain ⟨-, hreserved⟩ := illegalEncodingsAreExactlyThese w
  exact hreserved.mpr ⟨hop, hmode⟩

end Sys2Proof.Machine

/-! PROOFS. Spec 42_control.md: BR, JMP, JSR, JSRR (R140-R143) and the range check of a target (R44, R202). -/

namespace Sys2Proof

/-! ### Which words are a control transfer -/

/-- The operands of a branch stand where they are read. -/
theorem hasFields_conditions_offset9 (w : Word) : HasFields w
    [.mk 11 1 (condBit (w.getLsbD 11)), .mk 10 1 (condBit (w.getLsbD 10)), .mk 9 1 (condBit (w.getLsbD 9)),
      .mk 0 9 (w.extractLsb' 0 9)] := by
  simp [field_eq_condBit_iff]

/-- The base register of JMP or JSRR stands where it is read. -/
theorem hasFields_baseReg (w : Word) : HasFields w [.mk 6 3 (regField w 6).toBits] :=
  hasFields_singleton.mpr (toBits_regField w 6).symm

end Sys2Proof

namespace Sys2Proof.Machine

/-! ### The computed address -/

/-- An effective address is the word whose unsigned value is the base's plus the offset's signed value (R44). -/
theorem toNat_eq_effectiveAddress {n : Nat} (h : n ≤ 16) {base a : Word} {off : BitVec n}
    (ha : (a.toNat : Int) = base.toNat + off.toInt) : (a.toNat : Int) = effectiveAddress base off :=
  ha.trans (effectiveAddress_eq h base off).symm

/-- An instruction whose checked address, base plus offset, is out of range halts with AddressOutOfRange and writes
nothing (R44, R202, R205, D12, D13). -/
theorem exec_base_offset_out_of_range {n : Nat} (h : n ≤ 16) {i : Instr} {s : State} {base : Word} {off : BitVec n}
    (hi : checkedAddress s i = some (effectiveAddress base off))
    (ho : (base.toNat : Int) + off.toInt < 0 ∨ 65535 < (base.toNat : Int) + off.toInt) :
    exec i s = .next { s with
      run := .halted (.fault (.addressOutOfRange ((base.toNat : Int) + off.toInt) i.opcode (s.pc - 1))) } := by
  rw [effectiveAddress_eq h] at hi
  exact (exec_out_of_range hi ho).trans (congrArg Host.Outcome.next (State.raise_eq s i _))

/-! ### The branch -/

/-- BR's test, condition by condition (R140). -/
theorem matchesBits_iff {cc : CC} {n z p : Bool} :
    cc.matchesBits n z p = true ↔ n = true ∧ cc = .n ∨ z = true ∧ cc = .z ∨ p = true ∧ cc = .p := by
  cases cc <;> simp [CC.matchesBits]

/-- A branch one of whose asserted conditions holds goes to its target, if that is an address (R140). -/
theorem exec_br_of_matches {n z p : Bool} {off : BitVec 9} {s : State} {a : Word}
    (h : s.cc.matchesBits n z p = true) (ha : (a.toNat : Int) = s.pc.toNat + off.toInt) :
    exec (.br n z p off) s = .next (s.setPc a) := by
  rw [exec, execBr, if_pos h, withAddress_of_word s _ s.setPc (toNat_eq_effectiveAddress (by decide) ha)]

/-! ### The call through a base register -/

/-- JSRR goes to what its base register holds once R7 holds the return address (R143, D11). -/
theorem exec_jsrr (base : Reg) (s : State) :
    exec (.jsrr base) s = .next { s with regs := s.regs.set .r7 s.pc, pc := (s.regs.set .r7 s.pc).get base } := rfl

/-! ### The statements -/

/-- Settles O21: `matchesBits_iff` says whether the branch is taken; the target is checked only where it is. -/
theorem branchGoesWhereTheFlagsSay : Obligations.BranchGoesWhereTheFlagsSay := by
  unfold Obligations.BranchGoesWhereTheFlagsSay
  refine ⟨fun w hop => ?_, fun n z p off s => ?_⟩
  · exact decode_eq_of_opcode_mode rfl hop (hasFields_nil w) (hasFields_conditions_offset9 w)
  · rw [← matchesBits_iff, Bool.not_eq_true]
    refine ⟨exec_br_of_not_matches, fun htaken => ⟨fun a ha => ?_, fun hout => ?_⟩⟩
    · exact exec_br_of_matches htaken ha
    · exact exec_base_offset_out_of_range (by decide) (if_pos htaken) hout

/-- Settles O22: JMP's one effect is the PC write. -/
theorem jumpGoesToTheBaseRegister : Obligations.JumpGoesToTheBaseRegister := by
  unfold Obligations.JumpGoesToTheBaseRegister
  refine ⟨fun w hop => ?_, fun base s => ?_⟩
  · exact decode_eq_of_opcode_mode rfl hop (hasFields_nil w) (hasFields_baseReg w)
  · rfl

/-- Settles O23: the target's check decides, before R7 is written. -/
theorem jsrLinksAndJumps : Obligations.JsrLinksAndJumps := by
  unfold Obligations.JsrLinksAndJumps
  refine ⟨fun w hop hmode => ?_, fun off s => ⟨fun a ha => ?_, fun hout => ?_⟩⟩
  · exact decode_eq_of_opcode_mode rfl hop (hasFields_singleton.mpr hmode) (hasFields_singleton.mpr rfl)
  · exact congrArg Host.Outcome.next
      (withAddress_of_word s (.jsr off) _ (toNat_eq_effectiveAddress (by decide) ha))
  · exact exec_base_offset_out_of_range (by decide) rfl hout

/-- Settles O24: the write of R7 is seen in the base register exactly when that is R7. -/
theorem jsrrLinksThenReadsTheBase : Obligations.JsrrLinksThenReadsTheBase := by
  unfold Obligations.JsrrLinksThenReadsTheBase
  refine ⟨fun w hop hmode => ?_, fun base s => ⟨fun hne => ?_, fun hr7 => ?_⟩⟩
  · exact decode_eq_of_opcode_mode rfl hop (hasFields_singleton.mpr hmode) (hasFields_baseReg w)
  · rw [exec_jsrr, Regs.get_set_of_ne _ hne]
  · rw [hr7, exec_jsrr, Regs.get_set_self]

end Sys2Proof.Machine

/-! PROOFS. Spec 43_load_store.md: LD, LDI, LDR, ST, STI, STR, LEA (R160-R166), over the range check of the effective
address (R44, R202) and MemWrite (R47). -/

namespace Sys2Proof

/-! ### Which words are a load, a store or LEA -/

/-- The operands of a PC-relative access stand where they are read. -/
theorem hasFields_reg_offset9 (w : Word) : HasFields w
    [.mk 9 3 (regField w 9).toBits, .mk 0 9 (w.extractLsb' 0 9)] := by
  simp

/-- The operands of a base-relative access stand where they are read. -/
theorem hasFields_twoRegs_offset6 (w : Word) : HasFields w
    [.mk 9 3 (regField w 9).toBits, .mk 6 3 (regField w 6).toBits, .mk 0 6 (w.extractLsb' 0 6)] := by
  simp

end Sys2Proof

namespace Sys2Proof.Machine

/-! ### The effect at an effective address -/

/-- An instruction that is the range check of base plus offset and then `k` has the effect `k` at the word with that
value (R44). -/
theorem exec_base_offset_in_range {n : Nat} (h : n ≤ 16) {i : Instr} {s : State} {base a : Word} {off : BitVec n}
    (k : Word → State) (hi : exec i s = .next (s.withAddress i (effectiveAddress base off) k))
    (ha : (a.toNat : Int) = base.toNat + off.toInt) : exec i s = .next (k a) := by
  rw [hi, withAddress_of_word s i k (toNat_eq_effectiveAddress h ha)]

/-- An instruction whose effect is a store changes memory alone, and of canonical memory the one word (R47). -/
theorem exec_store_replaces_one_word {i : Instr} {s : State} {a v : Word} (hm : Memory.wf s.mem = true)
    (h : exec i s = .next (s.store a v)) :
    ∃ m : Memory, exec i s = .next { s with mem := m } ∧
      ∀ b : Word, Memory.read m b = if b = a then v else Memory.read s.mem b :=
  ⟨Memory.write s.mem a v, h, fun b => Memory.read_write hm a b v⟩

/-! ### Each instruction at an address in range -/

/-- LD writes DR and the CC from the word at the address (R160). -/
theorem exec_ld_in_range {dr : Reg} {off : BitVec 9} {s : State} {a : Word}
    (ha : (a.toNat : Int) = s.pc.toNat + off.toInt) :
    exec (.ld dr off) s = .next (s.writeReg dr (s.load a)) :=
  exec_base_offset_in_range (by decide) (fun ea => s.writeReg dr (s.load ea)) rfl ha

/-- LDI reads twice, and checks the first address alone (R161, R167). -/
theorem exec_ldi_in_range {dr : Reg} {off : BitVec 9} {s : State} {a : Word}
    (ha : (a.toNat : Int) = s.pc.toNat + off.toInt) :
    exec (.ldi dr off) s = .next (s.writeReg dr (s.load (s.load a))) :=
  exec_base_offset_in_range (by decide) (fun ea => s.writeReg dr (s.load (s.load ea))) rfl ha

/-- LDR takes the base from the state before DR is written (R162). -/
theorem exec_ldr_in_range {dr base : Reg} {off : BitVec 6} {s : State} {a : Word}
    (ha : (a.toNat : Int) = (s.regs.get base).toNat + off.toInt) :
    exec (.ldr dr base off) s = .next (s.writeReg dr (s.load a)) :=
  exec_base_offset_in_range (by decide) (fun ea => s.writeReg dr (s.load ea)) rfl ha

/-- ST stores SR at the address (R163). -/
theorem exec_st_in_range {sr : Reg} {off : BitVec 9} {s : State} {a : Word}
    (ha : (a.toNat : Int) = s.pc.toNat + off.toInt) :
    exec (.st sr off) s = .next (s.store a (s.reg sr)) :=
  exec_base_offset_in_range (by decide) (fun ea => s.store ea (s.reg sr)) rfl ha

/-- STI stores SR at the word read from the address, which is checked no more (R164, R167). -/
theorem exec_sti_in_range {sr : Reg} {off : BitVec 9} {s : State} {a : Word}
    (ha : (a.toNat : Int) = s.pc.toNat + off.toInt) :
    exec (.sti sr off) s = .next (s.store (s.load a) (s.reg sr)) :=
  exec_base_offset_in_range (by decide) (fun ea => s.store (s.load ea) (s.reg sr)) rfl ha

/-- STR stores SR at base plus offset (R165). -/
theorem exec_str_in_range {sr base : Reg} {off : BitVec 6} {s : State} {a : Word}
    (ha : (a.toNat : Int) = (s.regs.get base).toNat + off.toInt) :
    exec (.str sr base off) s = .next (s.store a (s.reg sr)) :=
  exec_base_offset_in_range (by decide) (fun ea => s.store ea (s.reg sr)) rfl ha

/-- LEA writes DR and the CC from the address itself (R166). -/
theorem exec_lea_in_range {dr : Reg} {off : BitVec 9} {s : State} {a : Word}
    (ha : (a.toNat : Int) = s.pc.toNat + off.toInt) :
    exec (.lea dr off) s = .next (s.writeReg dr a) :=
  exec_base_offset_in_range (by decide) (fun ea => s.writeReg dr ea) rfl ha

/-! ### The statements -/

/-- Settles O25: the range check decides whether DR takes the word read or the machine halts. -/
theorem ldLoadsThePcRelativeWord : Obligations.LdLoadsThePcRelativeWord := by
  unfold Obligations.LdLoadsThePcRelativeWord
  refine ⟨fun w hop => ?_, fun dr off s => ⟨fun a ha => ?_, fun hout => ?_⟩⟩
  · exact decode_eq_of_opcode_mode rfl hop (hasFields_nil w) (hasFields_reg_offset9 w)
  · exact exec_ld_in_range ha
  · exact exec_base_offset_out_of_range (by decide) rfl hout

/-- Settles O26: only the pointer's address is checked; the pointer itself, a word, is an address. -/
theorem ldiLoadsThroughThePointer : Obligations.LdiLoadsThroughThePointer := by
  unfold Obligations.LdiLoadsThroughThePointer
  refine ⟨fun w hop => ?_, fun dr off s => ⟨fun a ha => ?_, fun hout => ?_⟩⟩
  · exact decode_eq_of_opcode_mode rfl hop (hasFields_nil w) (hasFields_reg_offset9 w)
  · exact exec_ldi_in_range ha
  · exact exec_base_offset_out_of_range (by decide) rfl hout

/-- Settles O27: the address is that of the base before DR is written, so DR and the base may be one register. -/
theorem ldrLoadsTheBaseOffsetWord : Obligations.LdrLoadsTheBaseOffsetWord := by
  unfold Obligations.LdrLoadsTheBaseOffsetWord
  refine ⟨fun w hop => ?_, fun dr base off s => ⟨fun a ha => ?_, fun hout => ?_⟩⟩
  · exact decode_eq_of_opcode_mode rfl hop (hasFields_nil w) (hasFields_twoRegs_offset6 w)
  · exact exec_ldr_in_range ha
  · exact exec_base_offset_out_of_range (by decide) rfl hout

/-- Settles O28: in range the effect is a store at the effective address, which replaces one word. -/
theorem stStoresThePcRelativeWord : Obligations.StStoresThePcRelativeWord := by
  unfold Obligations.StStoresThePcRelativeWord
  refine ⟨fun w hop => ?_, fun sr off s => ⟨fun a hm ha => ?_, fun hout => ?_⟩⟩
  · exact decode_eq_of_opcode_mode rfl hop (hasFields_nil w) (hasFields_reg_offset9 w)
  · exact exec_store_replaces_one_word hm (exec_st_in_range ha)
  · exact exec_base_offset_out_of_range (by decide) rfl hout

/-- Settles O29: in range the effect is a store at the word read from the effective address. -/
theorem stiStoresThroughThePointer : Obligations.StiStoresThroughThePointer := by
  unfold Obligations.StiStoresThroughThePointer
  refine ⟨fun w hop => ?_, fun sr off s => ⟨fun a hm ha => ?_, fun hout => ?_⟩⟩
  · exact decode_eq_of_opcode_mode rfl hop (hasFields_nil w) (hasFields_reg_offset9 w)
  · exact exec_store_replaces_one_word hm (exec_sti_in_range ha)
  · exact exec_base_offset_out_of_range (by decide) rfl hout

/-- Settles O30: in range the effect is a store at base plus offset, of SR's word even where SR is the base. -/
theorem strStoresTheBaseOffsetWord : Obligations.StrStoresTheBaseOffsetWord := by
  unfold Obligations.StrStoresTheBaseOffsetWord
  refine ⟨fun w hop => ?_, fun sr base off s => ⟨fun a hm ha => ?_, fun hout => ?_⟩⟩
  · exact decode_eq_of_opcode_mode rfl hop (hasFields_nil w) (hasFields_twoRegs_offset6 w)
  · exact exec_store_replaces_one_word hm (exec_str_in_range ha)
  · exact exec_base_offset_out_of_range (by decide) rfl hout

/-- Settles O31: in range DR takes the checked address itself; LEA checks it as an access does (D8). -/
theorem leaGivesTheAddress : Obligations.LeaGivesTheAddress := by
  unfold Obligations.LeaGivesTheAddress
  refine ⟨fun w hop => ?_, fun dr off s => ⟨fun a ha => ?_, fun hout => ?_⟩⟩
  · exact decode_eq_of_opcode_mode rfl hop (hasFields_nil w) (hasFields_reg_offset9 w)
  · exact exec_lea_in_range ha
  · exact exec_base_offset_out_of_range (by decide) rfl hout

end Sys2Proof.Machine

/-! PROOFS. Spec 44_trap.md: TRAP under the default hook and under a supplied one (R190-R192). -/

namespace Sys2Proof.Machine

/-! ### The effect of a TRAP -/

/-- TRAP is the hook's call and nothing more (R190, D16). -/
theorem exec_trap (v : BitVec 8) (s : State) : exec (.trap v) s = .next (s.callHook s.hook v) := rfl

/-- A hook's call installs the Machine State the hook left; its outcome decides the run state alone (R190, R191). -/
theorem callHook_eq_install (s : State) (hook : TrapHook) (v : BitVec 8) :
    s.callHook hook v = { s.install (hook v s.toArchState).2 with
      run := if (hook v s.toArchState).1 = .halt then .halted .trapHalt else s.run } := by
  rw [State.callHook]
  obtain ⟨continues | halts, a⟩ := hook v s.toArchState
  · rfl
  · rfl

/-! ### The statements -/

/-- Settles O32: on canonical memory the call of the default hook is the halt alone. -/
theorem defaultTrapHookHaltsAndChangesNothing : Obligations.DefaultTrapHookHaltsAndChangesNothing := by
  unfold Obligations.DefaultTrapHookHaltsAndChangesNothing
  refine ⟨fun v a => rfl, fun v s hm hnone => ?_⟩
  rw [exec_trap, hook_of_none hnone, callHook_default hm, State.halt]

/-- Settles O33: the memory installed is the canonical form of the hook's, which reads as the hook's does. -/
theorem trapRunsTheSuppliedHook : Obligations.TrapRunsTheSuppliedHook := by
  unfold Obligations.TrapRunsTheSuppliedHook
  refine ⟨fun w hop => ?_, fun v s hook hsome => ?_⟩
  · exact decode_eq_of_opcode_mode rfl hop (hasFields_nil w) (hasFields_singleton.mpr rfl)
  · refine ⟨Memory.canon (Config.hostHook hook v s.toArchState).2.mem, Memory.canon_wf _, Memory.read_canon _, ?_⟩
    rw [exec_trap, hook_of_some hsome, callHook_eq_install, State.install]

end Sys2Proof.Machine

/-! PROOFS. Spec 60_exceptions.md: the halt reasons (R207, R208), the two faults and what each reports (R200-R202). -/

namespace Sys2Proof.Machine

/-! ### How an instruction halts -/

/-- The halt reasons an instruction can give in the state its handler runs in (R106, R201, R202). -/
inductive InstrHalts (s : State) : Instr → HaltReason → Prop where
  /-- a TRAP whose hook answers Halt -/
  | hook {v : BitVec 8} (hv : (s.hook v s.toArchState).1 = .halt) : InstrHalts s (.trap v) .trapHalt
  /-- the reserved opcode -/
  | invalid : InstrHalts s .invalid (.fault (.invalidOpcode 8 s.ipc))
  /-- the reserved shift mode -/
  | shfMode10 : InstrHalts s .shfMode10 (.fault (.invalidOpcode 13 s.ipc))
  /-- a checked address outside the range -/
  | outOfRange {i : Instr} {ea : Int} (ha : checkedAddress s i = some ea) (ho : ea < 0 ∨ 65535 < ea) :
      InstrHalts s i (.fault (.addressOutOfRange ea i.opcode s.ipc))

/-- A hook's call halts a Running machine exactly where the hook answers Halt, and with TrapHalt (R190). -/
theorem callHook_halted_iff {s : State} (hrun : s.run = .running) (hook : TrapHook) (v : BitVec 8) (r : HaltReason) :
    (s.callHook hook v).run = .halted r ↔ (hook v s.toArchState).1 = .halt ∧ .trapHalt = r := by
  rw [callHook_run, hrun]
  split
  case isTrue hv => rw [RunState.halted.injEq, and_iff_right hv]
  case isFalse hv => exact iff_of_false nofun fun ⟨h, _⟩ => hv h

/-- An instruction of a Running machine halts it for the reasons `InstrHalts` lists, and always where one is given. -/
theorem exec_halted_iff {i : Instr} {s t : State} {r : HaltReason} (hrun : s.run = .running)
    (h : exec i s = .next t) : t.run = .halted r ↔ InstrHalts s i r := by
  constructor
  · intro hr
    cases exec_effect h with
    | result | stored | stays | jumps | links => cases hrun.symm.trans hr
    | illegal hi =>
      cases hr
      rcases hi with rfl | rfl
      · exact .invalid
      · exact .shfMode10
    | outOfRange ha ho => cases hr; exact .outOfRange ha ho
    | hooks v =>
      obtain ⟨hv, rfl⟩ := (callHook_halted_iff hrun _ v r).mp hr
      exact .hook hv
  · intro hr
    cases hr with
    | hook hv => cases h; exact (callHook_halted_iff hrun _ _ _).mpr ⟨hv, rfl⟩
    | invalid | shfMode10 => cases h; rfl
    | outOfRange ha ho => cases h.symm.trans (exec_out_of_range ha ho); rfl

/-! ### How a step halts -/

/-- The address of the instruction whose handler runs is the PC before the advance (R105). -/
@[simp] theorem State.advanced_ipc (s : State) : s.advanced.ipc = s.pc := by
  rw [State.ipc_eq, State.advanced_pc, BitVec.add_sub_cancel]

/-- The halt reasons a step from a Running state can give, in the order of R208. -/
inductive StepHalts (s : State) : HaltReason → Prop where
  | stopRequest (hstop : s.stopRequested = true) : StepHalts s .stopRequest
  | cycleLimit (hstop : s.stopRequested = false) (hlimit : ∃ limit, s.cycleLimit = some limit ∧ limit ≤ s.cycles) :
      StepHalts s .cycleLimit
  /-- the advance from the top address -/
  | advance (hready : s.Ready) (hpc : s.pc = 0xFFFF) :
      StepHalts s (.fault (.addressOutOfRange 65536 ((Memory.read s.mem s.pc).extractLsb' 12 4) s.pc))
  | instr (hready : s.Ready) (hpc : s.pc ≠ 0xFFFF) {r : HaltReason}
      (hi : InstrHalts s.advanced (decode (Memory.read s.mem s.pc)) r) : StepHalts s r

/-- A step from a Running state halts for the reasons `StepHalts` lists, and always where one is given. -/
theorem step_halted_iff {s t : State} {r : HaltReason} (hrun : s.run = .running) (h : step s = .next t) :
    t.run = .halted r ↔ StepHalts s r := by
  constructor
  · intro hr
    rcases step_cases hrun with ⟨hstop, hs⟩ | ⟨hstop, hlimit, hs⟩ | ⟨hready, hpc, hs⟩ | ⟨hready, hpc, hs⟩
    · cases h.symm.trans hs; cases hr; exact .stopRequest hstop
    · cases h.symm.trans hs; cases hr; exact .cycleLimit hstop hlimit
    · cases h.symm.trans hs; cases hr; exact .advance hready hpc
    · exact .instr hready hpc ((exec_halted_iff (s := s.advanced) hrun (hs.symm.trans h)).mp hr)
  · intro hr
    cases hr with
    | stopRequest hstop => cases h.symm.trans (step_of_stopRequested hrun hstop); rfl
    | cycleLimit hstop hlimit =>
      obtain ⟨limit, hsome, hle⟩ := hlimit
      cases h.symm.trans (step_of_limit_reached hrun hstop hsome hle); rfl
    | advance hready hpc => cases h.symm.trans (step_at_top hready hpc); rfl
    | instr hready hpc hi =>
      exact (exec_halted_iff (s := s.advanced) hrun ((step_of_ready hready hpc).symm.trans h)).mpr hi

/-! ### Each halt reason, and exactly when -/

/-- No instruction halts for the stop request (R106, R208). -/
theorem not_instrHalts_stopRequest {s : State} {i : Instr} : ¬ InstrHalts s i .stopRequest := nofun

/-- No instruction halts for the cycle limit (R106, R208). -/
theorem not_instrHalts_cycleLimit {s : State} {i : Instr} : ¬ InstrHalts s i .cycleLimit := nofun

theorem stepHalts_stopRequest_iff {s : State} : StepHalts s .stopRequest ↔ s.stopRequested = true := by
  constructor
  · intro h
    cases h with
    | stopRequest hstop => exact hstop
    | instr _ _ hi => exact absurd hi not_instrHalts_stopRequest
  · exact .stopRequest

theorem stepHalts_cycleLimit_iff {s : State} :
    StepHalts s .cycleLimit ↔
      s.stopRequested = false ∧ ∃ limit : Nat, s.cycleLimit = some limit ∧ limit ≤ s.cycles := by
  constructor
  · intro h
    cases h with
    | cycleLimit hstop hlimit => exact ⟨hstop, hlimit⟩
    | instr _ _ hi => exact absurd hi not_instrHalts_cycleLimit
  · exact fun ⟨hstop, hlimit⟩ => .cycleLimit hstop hlimit

/-- A reason that neither the host checks nor the advance give is the instruction's. -/
theorem stepHalts_iff_instrHalts {s : State} {r : HaltReason} (hstop : r ≠ .stopRequest) (hlimit : r ≠ .cycleLimit)
    (hadvance : ∀ op at', r ≠ .fault (.addressOutOfRange 65536 op at')) :
    StepHalts s r ↔
      s.Ready ∧ s.pc ≠ 0xFFFF ∧ InstrHalts s.advanced (decode (Memory.read s.mem s.pc)) r := by
  constructor
  · intro h
    cases h with
    | stopRequest => exact absurd rfl hstop
    | cycleLimit => exact absurd rfl hlimit
    | advance => exact absurd rfl (hadvance _ _)
    | instr hready hpc hi => exact ⟨hready, hpc, hi⟩
  · exact fun ⟨hready, hpc, hi⟩ => .instr hready hpc hi

theorem instrHalts_trapHalt_iff {s : State} {i : Instr} :
    InstrHalts s i .trapHalt ↔ ∃ v : BitVec 8, i = .trap v ∧ (s.hook v s.toArchState).1 = .halt := by
  constructor
  · intro h
    cases h with
    | hook hv => exact ⟨_, rfl, hv⟩
  · rintro ⟨v, rfl, hv⟩
    exact .hook hv

/-- Which hook is supplied does not change while a cycle runs. -/
@[simp] theorem State.advanced_hook (s : State) : s.advanced.hook = s.hook := rfl

theorem stepHalts_trapHalt_iff {s : State} :
    StepHalts s .trapHalt ↔ s.Ready ∧ s.pc ≠ 0xFFFF ∧ ∃ v : BitVec 8,
      decode (Memory.read s.mem s.pc) = .trap v ∧ (s.hook v s.advanced.toArchState).1 = .halt := by
  rw [stepHalts_iff_instrHalts (r := .trapHalt) nofun nofun nofun, instrHalts_trapHalt_iff, State.advanced_hook]

theorem instrHalts_invalidOpcode_iff {s : State} {i : Instr} {op : BitVec 4} {at' : Word} :
    InstrHalts s i (.fault (.invalidOpcode op at')) ↔
      at' = s.ipc ∧ (i = .invalid ∧ op = 8 ∨ i = .shfMode10 ∧ op = 13) := by
  constructor
  · intro h
    cases h with
    | invalid => exact ⟨rfl, .inl ⟨rfl, rfl⟩⟩
    | shfMode10 => exact ⟨rfl, .inr ⟨rfl, rfl⟩⟩
  · rintro ⟨rfl, ⟨rfl, rfl⟩ | ⟨rfl, rfl⟩⟩
    · exact .invalid
    · exact .shfMode10

theorem stepHalts_invalidOpcode_iff {s : State} {op : BitVec 4} {at' : Word} :
    StepHalts s (.fault (.invalidOpcode op at')) ↔ s.Ready ∧ s.pc ≠ 0xFFFF ∧ at' = s.pc ∧
      (decode (Memory.read s.mem s.pc) = .invalid ∧ op = 8 ∨
        decode (Memory.read s.mem s.pc) = .shfMode10 ∧ op = 13) := by
  rw [stepHalts_iff_instrHalts (r := .fault (.invalidOpcode op at')) nofun nofun nofun, instrHalts_invalidOpcode_iff,
    State.advanced_ipc]

theorem instrHalts_addressOutOfRange_iff {s : State} {i : Instr} {a : Int} {op : BitVec 4} {at' : Word} :
    InstrHalts s i (.fault (.addressOutOfRange a op at')) ↔
      at' = s.ipc ∧ op = i.opcode ∧ checkedAddress s i = some a ∧ (a < 0 ∨ 65535 < a) := by
  constructor
  · intro h
    cases h with
    | outOfRange ha ho => exact ⟨rfl, rfl, ha, ho⟩
  · rintro ⟨rfl, rfl, ha, ho⟩
    exact .outOfRange ha ho

theorem stepHalts_addressOutOfRange_iff {s : State} {a : Int} {op : BitVec 4} {at' : Word} :
    StepHalts s (.fault (.addressOutOfRange a op at')) ↔
      s.Ready ∧ at' = s.pc ∧ op = (Memory.read s.mem s.pc).extractLsb' 12 4 ∧
        (s.pc = 0xFFFF ∧ a = 65536 ∨ s.pc ≠ 0xFFFF ∧
          checkedAddress s.advanced (decode (Memory.read s.mem s.pc)) = some a ∧ (a < 0 ∨ 65535 < a)) := by
  constructor
  · intro h
    cases h with
    | advance hready hpc => exact ⟨hready, rfl, rfl, .inl ⟨hpc, rfl⟩⟩
    | instr hready hpc hi =>
      rw [instrHalts_addressOutOfRange_iff, State.advanced_ipc, decode_opcode] at hi
      obtain ⟨hat, hop, hout⟩ := hi
      exact ⟨hready, hat, hop, .inr ⟨hpc, hout⟩⟩
  · rintro ⟨hready, rfl, rfl, ⟨hpc, rfl⟩ | ⟨hpc, hout⟩⟩
    · exact .advance hready hpc
    · refine .instr hready hpc ?_
      rw [instrHalts_addressOutOfRange_iff, State.advanced_ipc, decode_opcode]
      exact ⟨rfl, rfl, hout⟩

/-- Only a cycle that begins can fault (R208). -/
theorem ready_of_stepHalts_fault {s : State} {f : FaultValue} (h : StepHalts s (.fault f)) : s.Ready := by
  cases h with
  | advance hready | instr hready => exact hready

/-- Settles O47: a step halts for exactly the reasons `StepHalts` lists; each clause reads off those that give its
reason. -/
theorem haltReasonsAreExactlyTheFive : Obligations.HaltReasonsAreExactlyTheFive := by
  unfold Obligations.HaltReasonsAreExactlyTheFive
  intro s t hrun h
  have halts : ∀ r, t.run = .halted r ↔ StepHalts s r := fun r => step_halted_iff hrun h
  refine ⟨(halts _).trans stepHalts_stopRequest_iff, (halts _).trans stepHalts_cycleLimit_iff,
    (halts _).trans stepHalts_trapHalt_iff, fun op at' => (halts _).trans stepHalts_invalidOpcode_iff,
    fun a op at' => (halts _).trans stepHalts_addressOutOfRange_iff,
    fun ⟨f, hf⟩ => ready_of_stepHalts_fault ((halts _).mp hf), ?_⟩
  -- there is no sixth reason: the run states themselves
  rcases t.run with _ | (_ | (_ | _) | _ | _) <;> simp

/-! ### The table of bad addresses -/

/-- A base of at least `low` plus an `n`-bit offset, where it is no address, misses the range by at most half the
offset's span. -/
theorem bad_effectiveAddress {n low : Nat} (h : n ≤ 16) {base : Word} {off : BitVec n} (hlow : low ≤ base.toNat)
    (ho : effectiveAddress base off < 0 ∨ 65535 < effectiveAddress base off) :
    (low - 2 ^ (n - 1) ≤ effectiveAddress base off ∧ effectiveAddress base off ≤ -1) ∨
      (65536 ≤ effectiveAddress base off ∧ effectiveAddress base off ≤ 65534 + 2 ^ (n - 1)) := by
  have hlo := BitVec.le_toInt off
  have hhi := BitVec.toInt_lt (x := off)
  rw [effectiveAddress_eq h] at ho ⊢
  omega

/-- The bad addresses the table of R202 allows an instruction with opcode `op`. -/
def BadAddressOf (op : BitVec 4) (a : Int) : Prop :=
  ((op = 0 ∨ op = 2 ∨ op = 3 ∨ op = 10 ∨ op = 11 ∨ op = 14) ∧ (-255 ≤ a ∧ a ≤ -1 ∨ 65536 ≤ a ∧ a ≤ 65790)) ∨
  (op = 4 ∧ (-1023 ≤ a ∧ a ≤ -1 ∨ 65536 ≤ a ∧ a ≤ 66558)) ∨
  ((op = 6 ∨ op = 7) ∧ (-32 ≤ a ∧ a ≤ -1 ∨ 65536 ≤ a ∧ a ≤ 65566))

/-- A checked address out of range is one the table allows the instruction that computed it (R202). -/
theorem badAddressOf_of_checkedAddress {s : State} {i : Instr} {a : Int} (hpc : 1 ≤ s.pc.toNat)
    (ha : checkedAddress s i = some a) (ho : a < 0 ∨ 65535 < a) : BadAddressOf i.opcode a := by
  cases i with
  | br n z p off =>
    obtain ⟨-, ⟨⟩⟩ := Option.ite_none_right_eq_some.mp ha
    exact .inl ⟨by simp [Instr.opcode], bad_effectiveAddress (by decide) hpc ho⟩
  | ld | ldi | st | sti | lea =>
    cases ha
    exact .inl ⟨by simp [Instr.opcode], bad_effectiveAddress (by decide) hpc ho⟩
  | jsr =>
    cases ha
    exact .inr (.inl ⟨rfl, bad_effectiveAddress (by decide) hpc ho⟩)
  | ldr | str =>
    cases ha
    exact .inr (.inr ⟨by simp [Instr.opcode], bad_effectiveAddress (by decide) (Nat.zero_le _) ho⟩)
  | addReg | addImm | andReg | andImm | not | lshf | rshfl | rshfa | shfMode10 | jmp | jsrr | trap | invalid => cases ha

/-- Below the top address the advanced PC is not 0 (D7). -/
theorem advanced_pc_pos {s : State} (hpc : s.pc ≠ 0xFFFF) : 1 ≤ s.advanced.pc.toNat := by
  rw [State.advanced_pc]
  bv_omega

/-- Settles O48: the reported address and opcode by the clause of O47 for AddressOutOfRange, the ranges by the table. -/
theorem addressFaultReportsFollowTheTable : Obligations.AddressFaultReportsFollowTheTable := by
  unfold Obligations.AddressFaultReportsFollowTheTable
  intro s t a op at' hrun h hfault
  obtain ⟨-, hat, hop, hcause⟩ := stepHalts_addressOutOfRange_iff.mp ((step_halted_iff hrun h).mp hfault)
  refine ⟨hat, hop, hcause.imp_right fun ⟨hpc, ha, ho⟩ => ?_⟩
  have hbad := badAddressOf_of_checkedAddress (advanced_pc_pos hpc) ha ho
  rw [decode_opcode, ← hop] at hbad
  exact hbad.imp (.intro hpc) (.imp (.intro hpc) (.intro hpc))

end Sys2Proof.Machine

/-! PROOFS. Spec 70_reset_and_hazards.md: the state at reset and after a boot (R234, R235), the bytes of an image
(R230), what the loader accepts and reports (R232), what a load writes (R231). -/

namespace Sys2Proof.Machine

/-! ### The state at reset and after a boot -/

/-- Settles O53: reset lists no cell and gives no limit. -/
theorem resetHasTheInvariant : Obligations.ResetHasTheInvariant := by
  unfold Obligations.ResetHasTheInvariant
  exact ⟨rfl, nofun⟩

theorem reset_regs_get (r : Reg) : State.reset.regs.get r = 0 := by
  cases r <;> rfl

/-- Settles O56: reset field by field; a boot takes registers and CC from reset. -/
theorem resetAndBootState : Obligations.ResetAndBootState := by
  unfold Obligations.ResetAndBootState
  refine ⟨⟨rfl, reset_regs_get, rfl, rfl, rfl, rfl, rfl, rfl, rfl, rfl⟩, rfl, fun stream hook limit s h => ?_⟩
  obtain ⟨image, -, rfl⟩ := loadImage_of_boot h
  exact ⟨reset_regs_get, rfl⟩

/-! ### The bytes of an image -/

/-- A word as the two bytes an image holds it in, first byte high (R230). -/
def wordBytes (w : Word) : List Byte := [w.extractLsb' 8 8, w.extractLsb' 0 8]

/-- The loader joins the two bytes of a word back to it. -/
theorem bigEndian_wordBytes (w : Word) : bigEndian (w.extractLsb' 8 8) (w.extractLsb' 0 8) = w :=
  (BitVec.extractLsb'_append_extractLsb'_eq_extractLsb' (x := w) rfl).trans BitVec.extractLsb'_eq_self

/-- Two bytes more are one body word more. -/
@[simp] theorem bodyWords_cons_cons (high low : Byte) (rest : List Byte) :
    bodyWords (high :: low :: rest) = (bigEndian high low :: (bodyWords rest).1, (bodyWords rest).2) := rfl

/-- Reading the body inverts writing its words out, and no byte remains. -/
theorem bodyWords_flatMap_wordBytes (words : List Word) : bodyWords (words.flatMap wordBytes) = (words, false) := by
  induction words with
  | nil => rfl
  | cons w words ih =>
    rw [List.flatMap_cons, wordBytes, List.cons_append, List.cons_append, List.nil_append, bodyWords_cons_cons, ih,
      bigEndian_wordBytes]

/-- A body has as many words as whole byte pairs. -/
theorem bodyWords_length (bytes : List Byte) : (bodyWords bytes).1.length = bytes.length / 2 := by
  induction bytes using bodyWords.induct with
  | case1 => rfl
  | case2 => exact (Nat.div_eq_of_lt Nat.one_lt_two).symm
  | case3 high low rest _ _ _ ih =>
    simp only [bodyWords_cons_cons, List.length_cons]
    omega

/-- A byte remains exactly when their number is odd. -/
theorem bodyWords_odd_iff (bytes : List Byte) : (bodyWords bytes).2 = true ↔ bytes.length % 2 = 1 := by
  induction bytes using bodyWords.induct with
  | case1 => decide
  | case2 => exact iff_of_true rfl rfl
  | case3 high low rest _ _ _ ih =>
    rw [bodyWords_cons_cons, ih, List.length_cons, List.length_cons]
    omega

/-! ### What the loader accepts and reports -/

/-- The image that a stream's two origin bytes and the bytes after them stand for, whether or not it fits (R230). -/
def imageOf (high low : Byte) (rest : List Byte) : Image := ⟨originOf (bigEndian high low), (bodyWords rest).1⟩

theorem imageOf_tooLarge_iff (high low : Byte) (rest : List Byte) :
    (imageOf high low rest).tooLarge = true ↔ (originOf (bigEndian high low)).toNat + rest.length / 2 > 65536 := by
  rw [← bodyWords_length]
  exact decide_eq_true_iff

/-- What the loader does with a stream that has an origin: the image, if no byte remains and it fits; otherwise an error
whose condition holds (R232). -/
theorem loadImage_cases (high low : Byte) (rest : List Byte) :
    ((bodyWords rest).2 = false ∧ (imageOf high low rest).tooLarge = false ∧
      loadImage (some (high :: low :: rest)) = .ok (imageOf high low rest)) ∨
    ((bodyWords rest).2 = true ∧ loadImage (some (high :: low :: rest)) = .error .truncatedBodyWord) ∨
    ((imageOf high low rest).tooLarge = true ∧ loadImage (some (high :: low :: rest)) = .error .imageTooLarge) := by
  unfold imageOf loadImage
  dsimp only
  split
  case h_1 hodd hbig => exact .inl ⟨hodd, hbig, rfl⟩
  case h_2 hodd hbig => exact .inr (.inl ⟨hodd, rfl⟩)
  case h_3 hodd hbig => exact .inr (.inr ⟨hbig, rfl⟩)
  case h_4 hodd hbig =>
    split
    · exact .inr (.inr ⟨hbig, rfl⟩)
    · exact .inr (.inl ⟨hodd, rfl⟩)

theorem boot_of_loadImage_ok {stream : Option (List Byte)} {image : Image} (h : loadImage stream = .ok image)
    (hook limit : Option Nat) : boot stream hook limit = .ok (image.initialState hook limit) := by
  rw [boot, h]

theorem boot_of_loadImage_error {stream : Option (List Byte)} {e : LoadError} (h : loadImage stream = .error e)
    (hook limit : Option Nat) : boot stream hook limit = .error e := by
  rw [boot, h]

/-- What a boot does with a stream that has an origin, in terms of its length (R232). -/
theorem boot_cases (high low : Byte) (rest : List Byte) (hook limit : Option Nat) :
    (rest.length % 2 = 0 ∧ (originOf (bigEndian high low)).toNat + rest.length / 2 ≤ 65536 ∧
      boot (some (high :: low :: rest)) hook limit = .ok ((imageOf high low rest).initialState hook limit)) ∨
    (rest.length % 2 = 1 ∧ boot (some (high :: low :: rest)) hook limit = .error .truncatedBodyWord) ∨
    ((originOf (bigEndian high low)).toNat + rest.length / 2 > 65536 ∧
      boot (some (high :: low :: rest)) hook limit = .error .imageTooLarge) := by
  have hodd := bodyWords_odd_iff rest
  have hbig := imageOf_tooLarge_iff high low rest
  rcases loadImage_cases high low rest with ⟨heven, hfits, h⟩ | ⟨h1, h⟩ | ⟨h1, h⟩
  · rw [heven] at hodd
    rw [hfits] at hbig
    exact .inl ⟨by simpa using hodd, by simpa using hbig, boot_of_loadImage_ok h hook limit⟩
  · exact .inr (.inl ⟨hodd.mp h1, boot_of_loadImage_error h hook limit⟩)
  · exact .inr (.inr ⟨hbig.mp h1, boot_of_loadImage_error h hook limit⟩)

/-- A stream too short for an origin (R232 b). -/
theorem boot_of_length_lt_two {bytes : List Byte} (h : bytes.length < 2) (hook limit : Option Nat) :
    boot (some bytes) hook limit = .error .truncatedOrigin := by
  match bytes, h with
  | [], _ | [_], _ => rfl

/-- Settles O58: a stream with an origin by `boot_cases`: the condition of either error denies that of success. -/
theorem bootFailsExactlyOnABadImage : Obligations.BootFailsExactlyOnABadImage := by
  unfold Obligations.BootFailsExactlyOnABadImage
  refine fun hook limit => ⟨rfl, fun _ h => boot_of_length_lt_two h hook limit, ?_⟩
  rintro high low rest _ origin rfl horigin
  obtain rfl : origin = originOf (bigEndian high low) := horigin
  rcases boot_cases high low rest hook limit with ⟨heven, hfits, h⟩ | ⟨hodd, h⟩ | ⟨hbig, h⟩
  · simp [h, heven, hfits]
  · simp [h, hodd]
  · simp [h, hbig]

/-! ### What a load writes -/

theorem imageOf_wordBytes (originWord : Word) (body : List Word) :
    imageOf (originWord.extractLsb' 8 8) (originWord.extractLsb' 0 8) (body.flatMap wordBytes) =
      ⟨originOf originWord, body⟩ := by
  rw [imageOf, bigEndian_wordBytes, bodyWords_flatMap_wordBytes]

/-- An image that fits, written out in bytes, loads as it is (R230, R232). -/
theorem loadImage_flatMap_wordBytes {originWord : Word} {body : List Word}
    (hfits : (originOf originWord).toNat + body.length ≤ 65536) :
    loadImage (some ((originWord :: body).flatMap wordBytes)) = .ok ⟨originOf originWord, body⟩ := by
  rw [← imageOf_wordBytes]
  rcases loadImage_cases (originWord.extractLsb' 8 8) (originWord.extractLsb' 0 8) (body.flatMap wordBytes) with
    ⟨-, -, h⟩ | ⟨hodd, -⟩ | ⟨hbig, -⟩
  · exact h
  · rw [bodyWords_flatMap_wordBytes] at hodd
    cases hodd
  · rw [imageOf_wordBytes] at hbig
    exact absurd hfits (Nat.not_le_of_gt (of_decide_eq_true hbig))

/-- Where a load of words that fit reads as one of them (R231). -/
theorem Memory.read_putAll_of_index {m : Memory} (hm : Memory.wf m = true) {base : Nat} {ws : List Word}
    (h : base + ws.length ≤ 65536) {k : Nat} (hk : k < ws.length) {a : Word} (ha : a.toNat = base + k) :
    Memory.read (Memory.putAll m base ws) a = ws[k] := by
  rw [Memory.read, Memory.lookup_putAll hm base ws h, ha, if_pos (Nat.le_add_right base k), Nat.add_sub_cancel_left,
    List.getElem?_eq_getElem hk, Option.getD_some]

/-- Where a load of words that fit changes nothing (R231). -/
theorem Memory.read_putAll_of_outside {m : Memory} (hm : Memory.wf m = true) {base : Nat} {ws : List Word}
    (h : base + ws.length ≤ 65536) {a : Word} (ha : a.toNat < base ∨ base + ws.length ≤ a.toNat) :
    Memory.read (Memory.putAll m base ws) a = Memory.read m a := by
  rw [Memory.read, Memory.lookup_putAll hm base ws h]
  split
  · rw [List.getElem?_eq_none (by omega), Option.getD_none, Memory.read]
  · rfl

/-- Settles O57: the image boots, and its initial state holds the load into zero memory. -/
theorem bootLoadsTheImageAtItsOrigin : Obligations.BootLoadsTheImageAtItsOrigin := by
  unfold Obligations.BootLoadsTheImageAtItsOrigin
  rintro originWord _ body hook limit rfl hfits
  exact ⟨_, boot_of_loadImage_ok (loadImage_flatMap_wordBytes hfits) hook limit,
    fun k hk a ha => Memory.read_putAll_of_index rfl hfits hk ha,
    fun a ha => Memory.read_putAll_of_outside rfl hfits ha, rfl, rfl, rfl, rfl, rfl, rfl⟩

end Sys2Proof.Machine
